-- ==== Sys2Proof/Word.lean ====
section
/-!
DEFINITION. The bit-vector types of the spec (00_scope.md R7, R13): bit 0 is the least significant bit of each.
-/

namespace Sys2Proof

/-- One byte of the instruction stream, where a harness cuts words out of bytes (20_memory.md R42). -/
abbrev Byte := BitVec 8

/-- A half-precision element, `bits(16)` (R13). -/
abbrev Half := BitVec 16

/-- A 32-bit instruction word, a `W` register or FPCR (R10, R50). -/
abbrev Word := BitVec 32

/-- A single-precision element, `bits(32)` (R13). -/
abbrev Single := BitVec 32

/-- A 64-bit address or general register (R23, R24). -/
abbrev DWord := BitVec 64

end Sys2Proof
end

