-- ==== Sys2Proof/Syntax.lean ====
section
/-!
DEFINITION. The instruction as syntax: one constructor for each row of spec/opcode_table.json, with the operands the
decode blocks assemble (30_encoding.md R56 to R60, R63). Which operand values have an encoding is in WellFormed.lean.
-/

namespace Sys2Proof

/-- The vector select register `<Wv>`, one of W8 to W11 (30_encoding.md R56). -/
inductive VSel where
  | w8
  | w9
  | w10
  | w11
deriving DecidableEq, Repr

/-- The register number `v = 8 + uint(Rv)` (R56). -/
def VSel.number : VSel → Nat
  | .w8 => 8
  | .w9 => 9
  | .w10 => 10
  | .w11 => 11

/-- The three forms, by how many ZA double-vectors they write (R61). -/
inductive Form where
  | one
  | two
  | four
deriving DecidableEq, Repr

/-- `nreg`: the number of first-source `Z` registers and of ZA double-vectors (R61). -/
def Form.nreg : Form → Nat
  | .one => 1
  | .two => 2
  | .four => 4

/-- FMLAL in its three encodings. `offs` is the first vector select offset `<offs1>` (R59), `n` the number of the first
source register (R57), `m` the number of the indexed register (R58), `index` the element index (R60). -/
inductive Instr where
  /-- `FMLAL ZA.S[<Wv>, <offs1>:<offs2>], <Zn>.H, <Zm>.H[<index>]`, source id FMLAL_za_zzi_1 (R52, R83) -/
  | fmlalZaZzi1 (v : VSel) (offs n m index : Nat)
  /-- the form with VGx2 and a register pair `<Zn1>.H-<Zn2>.H`, source id FMLAL_za_zzi_2xi (R53, R84) -/
  | fmlalZaZzi2xi (v : VSel) (offs n m index : Nat)
  /-- the form with VGx4 and four registers `<Zn1>.H-<Zn4>.H`, source id FMLAL_za_zzi_4xi (R54, R85) -/
  | fmlalZaZzi4xi (v : VSel) (offs n m index : Nat)
deriving DecidableEq, Repr

/-- Which form an instruction is of. -/
def Instr.form : Instr → Form
  | .fmlalZaZzi1 .. => .one
  | .fmlalZaZzi2xi .. => .two
  | .fmlalZaZzi4xi .. => .four

/-- The vector select register of an instruction. -/
def Instr.v : Instr → VSel
  | .fmlalZaZzi1 v _ _ _ _ => v
  | .fmlalZaZzi2xi v _ _ _ _ => v
  | .fmlalZaZzi4xi v _ _ _ _ => v

/-- `offset` of the decode block (R59). -/
def Instr.offs : Instr → Nat
  | .fmlalZaZzi1 _ offs _ _ _ => offs
  | .fmlalZaZzi2xi _ offs _ _ _ => offs
  | .fmlalZaZzi4xi _ offs _ _ _ => offs

/-- `n` of the decode block (R57). -/
def Instr.n : Instr → Nat
  | .fmlalZaZzi1 _ _ n _ _ => n
  | .fmlalZaZzi2xi _ _ n _ _ => n
  | .fmlalZaZzi4xi _ _ n _ _ => n

/-- `m` of the decode block (R58). -/
def Instr.m : Instr → Nat
  | .fmlalZaZzi1 _ _ _ m _ => m
  | .fmlalZaZzi2xi _ _ _ m _ => m
  | .fmlalZaZzi4xi _ _ _ m _ => m

/-- `index` of the decode block (R60). -/
def Instr.index : Instr → Nat
  | .fmlalZaZzi1 _ _ _ _ index => index
  | .fmlalZaZzi2xi _ _ _ _ index => index
  | .fmlalZaZzi4xi _ _ _ _ index => index

/-- `nreg` of the decode block (R61). -/
abbrev Instr.nreg (i : Instr) : Nat := i.form.nreg

end Sys2Proof
end

