-- ==== Sys2Proof/WellFormed.lean ====
section
/-!
DEFINITION. Which instructions have an encoding: the legal operand values of 30_encoding.md R69 (ranges derived from
R56 to R60). The vector select register needs no check: its type holds W8 to W11 only.
-/

namespace Sys2Proof

/-- `<offs1>` of the one-vector form: even, 0 to 14 (R59, R69). -/
def offsOneOk (offs : Nat) : Bool := offs % 2 == 0 && offs ≤ 14

/-- `<offs1>` of the two- and four-vector forms: even, 0 to 6 (R59, R69). -/
def offsGroupOk (offs : Nat) : Bool := offs % 2 == 0 && offs ≤ 6

/-- `<Zn>`, `<Zn1>`: a register number up to 31 that is a multiple of `nreg` (R57, R69). -/
def znOk (nreg n : Nat) : Bool := n % nreg == 0 && n < 32

/-- `<Zm>`: Z0 to Z15 (R58, R69). -/
def zmOk (m : Nat) : Bool := m < 16

/-- `<index>`: 0 to 7 (R60, R69). -/
def indexOk (index : Nat) : Bool := index < 8

/-- The check of an instruction's operands (R69). -/
def Instr.wellFormed : Instr → Bool
  | .fmlalZaZzi1 _ offs n m index => offsOneOk offs && znOk 1 n && zmOk m && indexOk index
  | .fmlalZaZzi2xi _ offs n m index => offsGroupOk offs && znOk 2 n && zmOk m && indexOk index
  | .fmlalZaZzi4xi _ offs n m index => offsGroupOk offs && znOk 4 n && zmOk m && indexOk index

/-- The instruction has an encoding. -/
abbrev Instr.WellFormed (i : Instr) : Prop := i.wellFormed = true

end Sys2Proof
end

