-- ==== Sys2Proof/Decode.lean ====
section
/-!
DEFINITION. Decoding a 32-bit word (30_encoding.md R50 to R65) and, after it, encoding an instruction, from the same
register diagrams (R52 to R54). The feature test that opens each decode block (R63, R131) depends on the configuration
and stands in Machine/Ops.lean.
-/

namespace Sys2Proof

/-- One row of the format table: a word has the format exactly when `w AND mask = match` (R52 to R54). -/
structure Format where
  mask : Word
  value : Word
deriving DecidableEq, Repr

/-- The mask and match of each form (R52, R53, R54). -/
def formatOf : Form → Format
  | .one => ⟨0xFFF01018#32, 0xC1801000#32⟩
  | .two => ⟨0xFFF09038#32, 0xC1901000#32⟩
  | .four => ⟨0xFFF09078#32, 0xC1909000#32⟩

/-- The word has the fixed bits of the form. -/
def hasFormat (f : Form) (w : Word) : Bool := w &&& (formatOf f).mask == (formatOf f).value

/-- `UInt` of the field `w[lo + len - 1 : lo]` (00_scope.md R7, R9). -/
def field (w : Word) (lo len : Nat) : Nat := (w.extractLsb' lo len).toNat

/-- Why bytes or a word give no instruction of this spec. -/
inductive Reject where
  /-- the word matches none of the three formats (R64): it may be any other instruction or none -/
  | notInScope (w : Word)
  /-- fewer than four bytes are left, so there is no word (R50) -/
  | truncated
deriving DecidableEq, Repr

/-- The vector select register of `Rv = bits[14:13]` (R56). -/
def decodeVSel (w : Word) : VSel :=
  match field w 13 2 with
  | 0 => .w8
  | 1 => .w9
  | 2 => .w10
  | _ => .w11

/-- The fields of format za_zzi_1 (R52, R56 to R60): `off3` in bits 2:0, `Zn` in 9:5, `i3l` in 11:10, `i3h` in 15,
`Zm` in 19:16. -/
def decodeOne (w : Word) : Instr :=
  .fmlalZaZzi1 (decodeVSel w) (2 * field w 0 3) (field w 5 5) (field w 16 4) (4 * field w 15 1 + field w 10 2)

/-- The fields of format za_zzi_2xi (R53, R56 to R60): `off2` in bits 1:0, `i3l` in 2, `Zn` in 9:6, `i3h` in 11:10,
`Zm` in 19:16. -/
def decodeTwo (w : Word) : Instr :=
  .fmlalZaZzi2xi (decodeVSel w) (2 * field w 0 2) (2 * field w 6 4) (field w 16 4) (2 * field w 10 2 + field w 2 1)

/-- The fields of format za_zzi_4xi (R54, R56 to R60): as za_zzi_2xi, but `Zn` in 9:7. -/
def decodeFour (w : Word) : Instr :=
  .fmlalZaZzi4xi (decodeVSel w) (2 * field w 0 2) (4 * field w 7 3) (field w 16 4) (2 * field w 10 2 + field w 2 1)

/-- Decoding a word (R63), total; a word of no format is rejected by name (R64). -/
def decode (w : Word) : Except Reject Instr :=
  if hasFormat .one w then .ok (decodeOne w)
  else if hasFormat .two w then .ok (decodeTwo w)
  else if hasFormat .four w then .ok (decodeFour w)
  else .error (.notInScope w)

/-- The word at byte address `a` of a harness that has bytes: little-endian (20_memory.md R42). -/
def wordOfBytes (b0 b1 b2 b3 : Byte) : Word := b3 ++ b2 ++ b1 ++ b0

/-- The four bytes of a word, the first at the lowest address (20_memory.md R42). -/
def bytesOfWord (w : Word) : List Byte :=
  [w.extractLsb' 0 8, w.extractLsb' 8 8, w.extractLsb' 16 8, w.extractLsb' 24 8]

/-- Decoding the instruction at the head of a byte list, with the bytes that follow it; total on any bytes. -/
def decodeBytes : List Byte → Except Reject (Instr × List Byte)
  | b0 :: b1 :: b2 :: b3 :: rest =>
    match decode (wordOfBytes b0 b1 b2 b3) with
    | .ok i => .ok (i, rest)
    | .error e => .error e
  | _ => .error .truncated

/-- The instruction this decoder reads from a table row's bits, laid out as bytes first (every row has 32 bits, R50). -/
def decodeTableWord (nbits w : Nat) : Option Instr :=
  match decodeBytes (bytesOfWord (BitVec.ofNat 32 (w % 2 ^ nbits))) with
  | .ok (i, _) => some i
  | .error _ => none

/-- The field `Rv` (R56). -/
def VSel.code : VSel → BitVec 2
  | .w8 => 0#2
  | .w9 => 1#2
  | .w10 => 2#2
  | .w11 => 3#2

/-- Encoding: the diagrams of R52, R53 and R54, bit 31 first, with the fields of R56 to R60 (R72). -/
def encode : Instr → Word
  | .fmlalZaZzi1 v offs n m index =>
    0b11000001100#11 ++ 0#1 ++ BitVec.ofNat 4 m ++ BitVec.ofNat 1 (index / 4) ++ v.code ++ 1#1 ++
      BitVec.ofNat 2 (index % 4) ++ BitVec.ofNat 5 n ++ 0#2 ++ BitVec.ofNat 3 (offs / 2)
  | .fmlalZaZzi2xi v offs n m index =>
    0b11000001100#11 ++ 1#1 ++ BitVec.ofNat 4 m ++ 0#1 ++ v.code ++ 1#1 ++
      BitVec.ofNat 2 (index / 2) ++ BitVec.ofNat 4 (n / 2) ++ 0#3 ++ BitVec.ofNat 1 (index % 2) ++
      BitVec.ofNat 2 (offs / 2)
  | .fmlalZaZzi4xi v offs n m index =>
    0b11000001100#11 ++ 1#1 ++ BitVec.ofNat 4 m ++ 1#1 ++ v.code ++ 1#1 ++
      BitVec.ofNat 2 (index / 2) ++ BitVec.ofNat 3 (n / 4) ++ 0#4 ++ BitVec.ofNat 1 (index % 2) ++
      BitVec.ofNat 2 (offs / 2)

end Sys2Proof
end

