-- ==== Sys2Proof/Config.lean ====
section
/-!
DEFINITION. The parameters of 00_scope.md R6 as plain data, and the free values of the model.
`SVL`, `feat_sme2` and `feat_afp` are held as such. The two parameters that are functions
(`sme_access_trapped` and `fp_muladdh_za`) are held as selectors; where a selector asks for a function the spec
leaves open, that function is an opaque constant, so that no proof can see it.
-/

namespace Sys2Proof

/-- The vector length `SVL` (00_scope.md R6, D4): any positive multiple of 128, and by its proof field nothing else,
so a configuration outside R6 (00_scope.md R12) cannot be built. DESIGN CHOICE (log entry 6). -/
structure VectorLength where
  bits : Nat
  legal : 0 < bits ∧ bits % 128 = 0
deriving DecidableEq, Repr

/-- The narrower range of R6, from general knowledge in the spec: a power of two from 128 to 2048. -/
def VectorLength.isArchitectural (n : VectorLength) : Bool :=
  n.bits == 128 || n.bits == 256 || n.bits == 512 || n.bits == 1024 || n.bits == 2048

/-- The parameter `sme_access_trapped : State -> Bool` (00_scope.md R6, 60_exceptions.md R132, D10) as plain data. -/
inductive AccessControl where
  /-- constantly false, the spec's default -/
  | untrapped
  /-- constantly true -/
  | trapped
  /-- an arbitrary predicate of the state, `Config.accessTrappedIn` of Machine/State.lean -/
  | byState
deriving DecidableEq, Repr

/-- The parameter `fp_muladdh_za` (00_scope.md R6, 41_fp_numerics.md R118, D8) as plain data. -/
inductive Numerics where
  /-- the reference definition of 41_fp_numerics.md section 2, the spec's default; what R116 leaves out is refused -/
  | reference
  /-- the reference definition where it is given, and a free value where R116 leaves the function to the configuration -/
  | referenceOrFree
  /-- an arbitrary total function of the four arguments and `feat_afp` (R100) -/
  | configured
deriving DecidableEq, Repr

/-- The parameters of R6. None of them changes during a run. -/
structure Config where
  /-- `SVL`, which is what `CurrentVL()` returns (10_state.md R28) -/
  svl : VectorLength
  /-- `feat_sme2`, `IsFeatureImplemented(FEAT_SME2)` (R2, R131) -/
  featSme2 : Bool
  /-- `feat_afp` (41_fp_numerics.md R116) -/
  featAfp : Bool
  /-- `sme_access_trapped` (60_exceptions.md R132) -/
  access : AccessControl
  /-- `fp_muladdh_za` (41_fp_numerics.md R118) -/
  numerics : Numerics
deriving DecidableEq, Repr

/-- FREE VALUE (log entry 3): the function `fp_muladdh_za` of a configuration that does not fix it. Of it R100 requires
only that it is total and depends on nothing but `feat_afp` (the first argument), the addend, the two factors and FPCR. -/
opaque Config.freeFpMulAddHZa : Bool → Single → Half → Half → Word → Single

end Sys2Proof
end

