-- ==== Sys2Proof/Machine/State.lean ====
section
/-!
DEFINITION. The state of the machine (10_state.md R20 to R30), the reasons a step can stop, and the state after reset.
Register widths follow the configured vector length by their types, so a `Z` register and a ZA vector have exactly
`SVL` bits and the ZA array exactly `SVL/8` vectors: no state has another shape.
-/

namespace Sys2Proof.Machine

/-- The two mode bits `PSTATE.SM` and `PSTATE.ZA` (10_state.md R26). -/
structure PState where
  /-- 1 = the processing element is in Streaming SVE mode -/
  sm : Bool
  /-- 1 = the ZA array is enabled -/
  za : Bool
deriving DecidableEq, Repr

/-- The ZA array at vector length `n`: `n/8` vectors of `n` bits (10_state.md R22). -/
abbrev ZaArray (n : Nat) := Vector (BitVec n) (n / 8)

/-- The `Z` registers at vector length `n` (10_state.md R21). -/
abbrev ZFile (n : Nat) := Vector (BitVec n) 32

/-- The machine: the state of R20, with the parameters of the run (R6, R42) beside it, which no step writes. -/
structure State where
  /-- the parameters of 00_scope.md R6 (log entry 1) -/
  cfg : Config
  /-- the address the program is placed at (20_memory.md R42; log entry 1) -/
  base : DWord
  /-- the program text, a list of words (20_memory.md R42, R47; log entry 1) -/
  prog : List Word
  /-- Z0 to Z31 (R21) -/
  z : ZFile cfg.svl.bits
  /-- the ZA array (R22) -/
  za : ZaArray cfg.svl.bits
  /-- X8, whose low half is W8 (R23) -/
  x8 : DWord
  /-- X9, whose low half is W9 (R23) -/
  x9 : DWord
  /-- X10, whose low half is W10 (R23) -/
  x10 : DWord
  /-- X11, whose low half is W11 (R23) -/
  x11 : DWord
  /-- the program counter (R24) -/
  pc : DWord
  /-- the floating-point control register (R25) -/
  fpcr : Word
  /-- the mode bits (R26) -/
  pstate : PState
deriving DecidableEq, Repr

/-- The reason of an SME access trap (60_exceptions.md R132). -/
inductive SmeTrapReason where
  /-- SME is disabled or trapped for the current privilege level -/
  | accessTrapped
  /-- `PSTATE.SM` is 0 -/
  | notStreaming
  /-- `PSTATE.ZA` is 0 -/
  | inactiveZa
deriving DecidableEq, Repr

/-- The faults of 60_exceptions.md R130, with the information R136 gives them: the word and the `pc`. Terminal: the
state is what it was before the instruction (R133, R136). -/
inductive Fault where
  /-- Raised by a decode block when `feat_sme2` is false (R131). Safe: the spec ends the run here (R136). -/
  | undefined (w : Word) (pc : DWord)
  /-- Raised by `CheckStreamingSVEAndZAEnabled()` (R132). Safe: the spec ends the run here (R136). -/
  | smeAccessTrap (reason : SmeTrapReason) (w : Word) (pc : DWord)
deriving DecidableEq, Repr

/-- The refusals: the edge of what the spec gives a meaning (00_scope.md R12), none a behaviour of the hardware. -/
inductive Refusal where
  /-- Raised by an arm of `exec` whose instruction has no meaning yet. Safe: it proves nothing. No arm raises it now. -/
  | notModelled (mnemonic : String)
  /-- Raised by `step` on a word of no format (30_encoding.md R64). Safe: the word may be any other instruction. -/
  | notInScope (w : Word)
  /-- Raised by `step` when `pc` is not 4-aligned, or lies outside the program and is not its end (20_memory.md R42).
  Safe. -/
  | fetchOutside (pc : DWord)
  /-- Raised by `step` when `pc` is the end of the program: the run has ended and there is no step (70_reset_and_hazards.md
  R153). Safe: the spec gives no further state (log entry 9). -/
  | endOfRun
  /-- Raised by a meaning under the reference numerics when `feat_afp` is true and `AH` or `FIZ` is set (41_fp_numerics.md
  R116). Safe: the spec refuses here. -/
  | altFpNotSpecified
  /-- Raised by `exec` on a term of `Instr` that no word encodes (30_encoding.md R69). Safe: `step` never meets one. -/
  | illFormed
deriving DecidableEq, Repr

/-- The state after reset. The spec states no reset value (10_state.md R33, 70_reset_and_hazards.md R150): every value
here is named in log entries 4, 5 and 6, or is the default R6 gives a parameter. No program is placed (R42). -/
def State.reset : State where
  cfg := ⟨⟨128, by decide⟩, true, false, .untrapped, .reference⟩
  base := 0#64
  prog := []
  z := Vector.replicate _ 0#_
  za := Vector.replicate _ 0#_
  x8 := 0#64
  x9 := 0#64
  x10 := 0#64
  x11 := 0#64
  pc := 0#64
  fpcr := 0#32
  pstate := ⟨false, false⟩

end Sys2Proof.Machine

namespace Sys2Proof

/-- FREE VALUE (log entry 2): the predicate `sme_access_trapped` of a configuration that selects it by `byState`
(00_scope.md R6, D10). Nothing is assumed of it. -/
opaque Config.accessTrappedIn : Machine.State → Bool

end Sys2Proof
end

