-- ==== Sys2Proof/Machine/Ops.lean ====
section
/-!
DEFINITION. The named operations over registers, the ZA array and the program text, the two checks an instruction
makes before it executes, and raising a fault, each once.
-/

namespace Sys2Proof.Machine

/-! ## Elements of a bit vector (00_scope.md R9, R10) -/

/-- `elem(v, k, w)`, the source's `v[k*:(w)]` (R9): bits `k*w + w - 1 : k*w`, element 0 least significant. -/
def elem {n : Nat} (v : BitVec n) (k w : Nat) : BitVec w := v.extractLsb' (k * w) w

/-- The assignment `v[k*:(w)] = x` (R9): that slice becomes `x`, the other bits stay. -/
def setElem {n w : Nat} (v : BitVec n) (k : Nat) (x : BitVec w) : BitVec n :=
  (v &&& ~~~((BitVec.allOnes w).setWidth n <<< (k * w))) ||| (x.setWidth n <<< (k * w))

/-- `var result : bits(VL)` assigned slice by slice, `for e = 0 to elements-1` (40_fmlal_za_indexed.md R80). What it
holds before does not matter: each of its `n/32` slices is assigned, and they tile it (R9, R82). -/
def buildVector (n : Nat) (f : Nat → Single) : BitVec n :=
  (List.range (n / 32)).foldl (fun result e => setElem result e (f e)) 0#n

/-! ## Registers -/

/-- `CurrentVL()` where the operation reaches it: `SVL` (10_state.md R28). -/
def State.currentVL (s : State) : Nat := s.cfg.svl.bits

/-- `Z{}(k)` (10_state.md R21). No instruction forms a number above 31 (R21, R88). -/
def State.zReg (s : State) (k : Nat) : BitVec s.cfg.svl.bits := s.z[k]?.getD 0#_

/-- `x[v]`, 64 bits (10_state.md R23). -/
def State.xReg (s : State) : VSel → DWord
  | .w8 => s.x8
  | .w9 => s.x9
  | .w10 => s.x10
  | .w11 => s.x11

/-- `X{}(v)` read as `bits(32)`: `w[v] = x[v][31:0]` (10_state.md R23). -/
def State.wReg (s : State) (v : VSel) : Word := (s.xReg v).extractLsb' 0 32

/-- `ZAvector{}(k)` (10_state.md R22). No instruction forms a number outside the array (R88). -/
def zaRead {n : Nat} (za : ZaArray n) (k : Nat) : BitVec n := za[k]?.getD 0#n

/-- `ZAvector{VL}(k) = v` (10_state.md R22): vector `k` and nothing else (R29). -/
def zaWrite {n : Nat} (za : ZaArray n) (k : Nat) (v : BitVec n) : ZaArray n := za.setIfInBounds k v

/-- A completed instruction sets `pc <- (pc + 4) mod 2^64` (10_state.md R24, 40_fmlal_za_indexed.md R90). -/
def State.nextPc (s : State) : DWord := s.pc + 4#64

/-! ## Faults (60_exceptions.md) -/

/-- Raising a fault: the run ends with the fault's information and no state is written (60_exceptions.md R133, R136).
The spec describes no exception entry and no return (R136, R137), so there is nothing else to do. -/
def raise (f : Fault) : Host.Outcome State Fault Refusal := .fault f

/-- The first line of each decode block: without `FEAT_SME2` the word is UNDEFINED (60_exceptions.md R131). -/
def featureFault (w : Word) (s : State) : Option Fault :=
  if s.cfg.featSme2 then none else some (.undefined w s.pc)

/-- The parameter `sme_access_trapped(state)` (60_exceptions.md R132, D10). -/
def State.accessTrapped (s : State) : Bool :=
  match s.cfg.access with
  | .untrapped => false
  | .trapped => true
  | .byState => Config.accessTrappedIn s

/-- `CheckStreamingSVEAndZAEnabled()` (60_exceptions.md R132): three tests, the first that fails is reported (D11). -/
def streamingAndZaFault (w : Word) (s : State) : Option Fault :=
  if s.accessTrapped then some (.smeAccessTrap .accessTrapped w s.pc)
  else if !s.pstate.sm then some (.smeAccessTrap .notStreaming w s.pc)
  else if !s.pstate.za then some (.smeAccessTrap .inactiveZa w s.pc)
  else none

/-- The fault of a word of one of the three formats, if any: the feature test comes before the check (R135). -/
def executionFault (w : Word) (s : State) : Option Fault :=
  match featureFault w s with
  | some f => some f
  | none => streamingAndZaFault w s

/-- The exception class label of a fault (60_exceptions.md R131, R132). PRESUMED: general knowledge of the spec's writer
(D19); nothing depends on it. -/
def Fault.exceptionClass : Fault → BitVec 6
  | .undefined .. => 0x00#6
  | .smeAccessTrap .. => 0x1D#6

/-- The cause label SMTC of an SME access trap (60_exceptions.md R132). PRESUMED, as `exceptionClass` (D19). -/
def SmeTrapReason.smtc : SmeTrapReason → BitVec 3
  | .accessTrapped => 0b000#3
  | .notStreaming => 0b010#3
  | .inactiveZa => 0b011#3

/-! ## Instruction fetch (20_memory.md R42) -/

/-- What stands at the program counter. -/
inductive Fetched where
  /-- a word of the program -/
  | word (w : Word)
  /-- the end of the program: the run ends (70_reset_and_hazards.md R153) -/
  | ended
  /-- neither: refused -/
  | outside
deriving DecidableEq, Repr

/-- The program is placed at a multiple of 4 (R42). -/
def State.baseAligned (s : State) : Bool := s.base.toNat % 4 == 0

/-- The number of the program's word at `pc`, for a `pc` that is a multiple of 4 and not below the program (R42). -/
def State.fetchIndex (s : State) : Option Nat :=
  if s.baseAligned && s.pc.toNat % 4 == 0 && decide (s.base.toNat ≤ s.pc.toNat)
  then some ((s.pc.toNat - s.base.toNat) / 4) else none

/-- `pc = base + 4 * len`, as 64-bit addresses: the end of the program (R42, R153; log entry 10). -/
def State.atEnd (s : State) : Bool := s.baseAligned && s.pc == s.base + BitVec.ofNat 64 (4 * s.prog.length)

/-- The fetch of R42: `prog[(pc - base) / 4]` inside the program, the end of the run at its end, a refusal elsewhere. -/
def fetch (s : State) : Fetched :=
  match s.fetchIndex.bind (s.prog[·]?) with
  | some w => .word w
  | none => if s.atEnd then .ended else .outside

end Sys2Proof.Machine
end

