-- ==== Sys2Proof/Machine/Flags.lean ====
section
/-!
DEFINITION. The fields of FPCR (10_state.md R25). The instruction writes no flag and no status register: NZCV and FPSR
are not state (10_state.md R27, D13), so there is no flag computation; FPCR is the only control word, and it is read.
-/

namespace Sys2Proof.Machine

/-- The rounding modes (41_fp_numerics.md R112). -/
inductive RoundingMode where
  /-- to nearest, ties to even -/
  | rn
  /-- toward plus infinity -/
  | rp
  /-- toward minus infinity -/
  | rm
  /-- toward zero -/
  | rz
deriving DecidableEq, Repr

/-- `RMode`, bits 23:22 (R25, R112). -/
def roundingMode (fpcr : Word) : RoundingMode :=
  match (fpcr.extractLsb' 22 2).toNat with
  | 0 => .rn
  | 1 => .rp
  | 2 => .rm
  | _ => .rz

/-- `AHP`, bit 26: ignored by the instruction (R25, R105). -/
def fpcrAhp (fpcr : Word) : Bool := fpcr.getLsbD 26

/-- `DN`, bit 25: treated as 1 whatever it holds (R25, R108). -/
def fpcrDn (fpcr : Word) : Bool := fpcr.getLsbD 25

/-- `FZ`, bit 24: flushes a denormal single-precision addend (R25, R106). -/
def fpcrFz (fpcr : Word) : Bool := fpcr.getLsbD 24

/-- `FZ16`, bit 19: flushes denormal half-precision inputs (R25, R105). -/
def fpcrFz16 (fpcr : Word) : Bool := fpcr.getLsbD 19

/-- The trap enables `IDE`, `IXE`, `UFE`, `OFE`, `DZE`, `IOE`, bits 15, 12, 11, 10, 9, 8: ignored (R25, R109). -/
def fpcrTrapEnables (fpcr : Word) : List Bool :=
  [fpcr.getLsbD 15, fpcr.getLsbD 12, fpcr.getLsbD 11, fpcr.getLsbD 10, fpcr.getLsbD 9, fpcr.getLsbD 8]

/-- `NEP`, bit 2: ignored, the instruction has no scalar form (R25, R116). -/
def fpcrNep (fpcr : Word) : Bool := fpcr.getLsbD 2

/-- `AH`, bit 1: matters only with `feat_afp` (R25, R116). -/
def fpcrAh (fpcr : Word) : Bool := fpcr.getLsbD 1

/-- `FIZ`, bit 0: matters only with `feat_afp` (R25, R116). -/
def fpcrFiz (fpcr : Word) : Bool := fpcr.getLsbD 0

end Sys2Proof.Machine
end

