-- ==== Sys2Proof/Machine/FpNumerics.lean ====
section
/-!
DEFINITION. The floating-point function `FPMulAddH_ZA` (41_fp_numerics.md). What the source settles is its type, that
the factors are widened, and that there is one rounding (R100, R102). The reference definition (R104 to R116) is the
spec's, from general knowledge: PRESUMED (log entry 3). Values are exact dyadic rationals, so nothing is rounded before
`round32`.
-/

namespace Sys2Proof.Machine

/-! ## Exact values -/

/-- The exact rational number `num * 2^-scale` (R104 "exact rational arithmetic"). -/
structure Exact where
  num : Int
  scale : Nat
deriving DecidableEq, Repr

/-- The exact product. -/
def Exact.mul (a b : Exact) : Exact := ⟨a.num * b.num, a.scale + b.scale⟩

/-- The exact sum, at the finer of the two scales. -/
def Exact.add (a b : Exact) : Exact :=
  ⟨a.num * 2 ^ (max a.scale b.scale - a.scale) + b.num * 2 ^ (max a.scale b.scale - b.scale), max a.scale b.scale⟩

/-- `(-1)^sign * mag * 2^-scale`. -/
def Exact.signed (sign : Bool) (mag scale : Nat) : Exact := ⟨if sign then -(mag : Int) else mag, scale⟩

/-! ## Unpacking (R101, R105, R106) -/

/-- The types of an operand (R105, R106). -/
inductive FpKind where
  | zero
  | denormal
  | nonzero
  | infinity
  | qnan
  | snan
deriving DecidableEq, Repr

/-- An unpacked operand: its type, its sign (true = negative) and, where it is finite, its value. -/
structure Unpacked where
  kind : FpKind
  sign : Bool
  val : Exact
deriving DecidableEq, Repr

def Unpacked.isNaN (u : Unpacked) : Bool := u.kind == .qnan || u.kind == .snan
def Unpacked.isInf (u : Unpacked) : Bool := u.kind == .infinity
def Unpacked.isZero (u : Unpacked) : Bool := u.kind == .zero

/-- The fields `s`, `exp`, `frac` of a half-precision element (R101, R105). -/
def halfSign (h : Half) : Bool := h.getLsbD 15
def halfExp (h : Half) : Nat := (h.extractLsb' 10 5).toNat
def halfFrac (h : Half) : Nat := (h.extractLsb' 0 10).toNat

/-- The fields `s`, `exp`, `frac` of a single-precision element (R101, R106). -/
def singleSign (a : Single) : Bool := a.getLsbD 31
def singleExp (a : Single) : Nat := (a.extractLsb' 23 8).toNat
def singleFrac (a : Single) : Nat := (a.extractLsb' 0 23).toNat

/-- Unpacking a half-precision operand (R105); its value is a multiple of `2^-24`. `AHP` and `FZ` play no part. -/
def unpack16 (h : Half) (fz16 : Bool) : Unpacked :=
  if halfExp h = 0 then
    if halfFrac h = 0 ∨ fz16 = true then ⟨.zero, halfSign h, ⟨0, 24⟩⟩
    else ⟨.denormal, halfSign h, .signed (halfSign h) (halfFrac h) 24⟩
  else if halfExp h = 31 then
    if halfFrac h = 0 then ⟨.infinity, halfSign h, ⟨0, 24⟩⟩
    else if h.getLsbD 9 then ⟨.qnan, halfSign h, ⟨0, 24⟩⟩
    else ⟨.snan, halfSign h, ⟨0, 24⟩⟩
  else ⟨.nonzero, halfSign h, .signed (halfSign h) ((1024 + halfFrac h) * 2 ^ (halfExp h - 1)) 24⟩

/-- Unpacking the single-precision addend (R106); its value is a multiple of `2^-149`. -/
def unpack32 (a : Single) (fz : Bool) : Unpacked :=
  if singleExp a = 0 then
    if singleFrac a = 0 ∨ fz = true then ⟨.zero, singleSign a, ⟨0, 149⟩⟩
    else ⟨.denormal, singleSign a, .signed (singleSign a) (singleFrac a) 149⟩
  else if singleExp a = 255 then
    if singleFrac a = 0 then ⟨.infinity, singleSign a, ⟨0, 149⟩⟩
    else if a.getLsbD 22 then ⟨.qnan, singleSign a, ⟨0, 149⟩⟩
    else ⟨.snan, singleSign a, ⟨0, 149⟩⟩
  else ⟨.nonzero, singleSign a, .signed (singleSign a) ((2 ^ 23 + singleFrac a) * 2 ^ (singleExp a - 1)) 149⟩

/-! ## Results -/

/-- The default NaN (R115). -/
def defaultNaN : Single := 0x7FC00000#32

/-- `sign ++ exp ++ frac` (R101, R113). -/
def packSingle (sign : Bool) (exp frac : Nat) : Single :=
  BitVec.ofBool sign ++ BitVec.ofNat 8 exp ++ BitVec.ofNat 23 frac

/-- `sign ++ zeros(31)` (R113, R114). -/
def signedZero (sign : Bool) : Single := packSingle sign 0 0

/-- The infinity of a sign: `0x7F800000`, `0xFF800000` (R111). -/
def signedInfinity (sign : Bool) : Single := packSingle sign 255 0

/-- The largest finite value of a sign: `0x7F7FFFFF`, `0xFF7FFFFF` (R113). -/
def signedMax (sign : Bool) : Single := packSingle sign 254 0x7FFFFF

/-! ## Rounding (R113) -/

/-- `round_up` of R113, for `int + rem/den` with `rem < den`. -/
def roundUp (mode : RoundingMode) (sign : Bool) (int rem den : Nat) : Bool :=
  match mode with
  | .rn => decide (den < 2 * rem) || (2 * rem == den && int % 2 == 1)
  | .rp => rem != 0 && !sign
  | .rm => rem != 0 && sign
  | .rz => false

/-- `overflow_to_inf` of R113. -/
def overflowToInf (mode : RoundingMode) (sign : Bool) : Bool :=
  match mode with
  | .rn => true
  | .rp => !sign
  | .rm => sign
  | .rz => false

/-- The last lines of R113: overflow, or `sign ++ biased[7:0] ++ int[22:0]`. -/
def finishRound (mode : RoundingMode) (sign : Bool) (biased int : Nat) : Single :=
  if 255 ≤ biased then (if overflowToInf mode sign then signedInfinity sign else signedMax sign)
  else packSingle sign biased int

/-- The adjustments after rounding up (R113): a denormal rounded up to the smallest normal, and the mantissa carry. -/
def roundedUp (biased int : Nat) : Nat × Nat :=
  let biased' := if int + 1 = 2 ^ 23 then 1 else biased
  if int + 1 = 2 ^ 24 then (biased' + 1, (int + 1) / 2) else (biased', int + 1)

/-- Rounding a non-zero exact value to single precision (R113). `m * 2^-scale` has `e = log2 m - scale`, and the
quotient `q` in units of the last place is `num / den`. -/
def round32 (r : Exact) (mode : RoundingMode) (fz : Bool) : Single :=
  let sign := decide (r.num < 0)
  let m := r.num.natAbs
  let e : Int := (Nat.log2 m : Int) - r.scale
  if fz = true ∧ e < -126 then signedZero sign
  else
    let biased := (e + 127).toNat
    let num := if biased = 0 then m * 2 ^ 149 else m * 2 ^ 23
    let den := if biased = 0 then 2 ^ r.scale else 2 ^ Nat.log2 m
    let int := num / den
    if roundUp mode sign int (num % den) den
    then finishRound mode sign (roundedUp biased int).1 (roundedUp biased int).2
    else finishRound mode sign biased int

/-! ## The function -/

/-- The reference definition on unpacked operands (R104, R107, R108, R110, R111, R114). -/
def mulAddUnpacked (a x y : Unpacked) (mode : RoundingMode) (fz : Bool) : Single :=
  let sp := x.sign != y.sign
  let infP := x.isInf || y.isInf
  let zeroP := x.isZero || y.isZero
  if a.isNaN || x.isNaN || y.isNaN then defaultNaN
  else if (x.isInf && y.isZero) || (x.isZero && y.isInf) || (a.isInf && infP && a.sign != sp) then defaultNaN
  else if (a.isInf && !a.sign) || (infP && !sp) then signedInfinity false
  else if (a.isInf && a.sign) || (infP && sp) then signedInfinity true
  else if a.isZero && zeroP && a.sign == sp then signedZero a.sign
  else
    let r := a.val.add (x.val.mul y.val)
    if r.num = 0 then signedZero (mode == .rm) else round32 r mode fz

/-- The reference definition of `fp_muladdh_za` (R104). It reads only `RMode`, `FZ` and `FZ16` of FPCR (R25). -/
def fpMulAddReference (addend : Single) (op1 op2 : Half) (fpcr : Word) : Single :=
  mulAddUnpacked (unpack32 addend (fpcrFz fpcr)) (unpack16 op1 (fpcrFz16 fpcr)) (unpack16 op2 (fpcrFz16 fpcr))
    (roundingMode fpcr) (fpcrFz fpcr)

/-- The case R116 leaves to the configuration: `feat_afp` with `AH` or `FIZ` set. -/
def altFpLeftOpen (cfg : Config) (fpcr : Word) : Bool := cfg.featAfp && (fpcrAh fpcr || fpcrFiz fpcr)

/-- The refusal `AltFPNotSpecified` of R116: the case above, in a model that uses the reference definition. -/
def altFpRefused (cfg : Config) (fpcr : Word) : Bool := cfg.numerics == .reference && altFpLeftOpen cfg fpcr

/-- `fp_muladdh_za`, the configuration's function (R100, R118; log entry 3). -/
def fpMulAddHZa (cfg : Config) (addend : Single) (op1 op2 : Half) (fpcr : Word) : Single :=
  match cfg.numerics with
  | .reference => fpMulAddReference addend op1 op2 fpcr
  | .referenceOrFree =>
    if altFpLeftOpen cfg fpcr then Config.freeFpMulAddHZa cfg.featAfp addend op1 op2 fpcr
    else fpMulAddReference addend op1 op2 fpcr
  | .configured => Config.freeFpMulAddHZa cfg.featAfp addend op1 op2 fpcr

end Sys2Proof.Machine
end

