-- ==== Sys2Proof/Machine/Operands.lean ====
section
/-!
DEFINITION. The index arithmetic of the operation, in unbounded integers (40_fmlal_za_indexed.md R80 to R82, R86).
`n` is the vector length in bits.
-/

namespace Sys2Proof.Machine

/-- `elements = VL DIV 32`: single-precision elements of a vector (R80). -/
def elements (n : Nat) : Nat := n / 32

/-- `vectors = VL DIV 8`: vectors in the ZA array (R80). -/
def vectors (n : Nat) : Nat := n / 8

/-- `vstride = vectors DIV nreg` (R81). -/
def vstride (n nreg : Nat) : Nat := vectors n / nreg

/-- `t = (uint(w[v]) + offset) mod vstride` (R81). -/
def vecReduced (n nreg : Nat) (wv : Word) (offs : Nat) : Nat := (wv.toNat + offs) % vstride n nreg

/-- `vec0`: `t` with bit 0 cleared (R81; the pseudocode governs, 90_conflicts.md C4). -/
def vecFirst (n nreg : Nat) (wv : Word) (offs : Nat) : Nat :=
  vecReduced n nreg wv offs - vecReduced n nreg wv offs % 2

/-- The number of the ZA vector `vec0 + r * vstride + i` of double-vector `r`, half `i` (R81). -/
def vecIndex (n nreg : Nat) (wv : Word) (offs r i : Nat) : Nat :=
  vecFirst n nreg wv offs + r * vstride n nreg + i

/-- `s = 2 * segmentbase + index` with `segmentbase = e - (e MOD 4)`: the indexed half-precision element of the 128-bit
segment that holds single-precision element `e` (R80, R82). -/
def segmentElement (e index : Nat) : Nat := 2 * (e - e % 4) + index

end Sys2Proof.Machine
end

