-- ==== Sys2Proof/Machine/Fmlal.lean ====
section
/-!
DEFINITION. The operation of FMLAL (40_fmlal_za_indexed.md R80), once for its three encodings, and the meaning of each
encoding (R83, R84, R85).
-/

namespace Sys2Proof.Machine

/-- The loop over `e`: the new value of one ZA vector, from the first source `op1`, the indexed source `op2` and the old
ZA vector `op3` (R80, R82). All its elements are replaced: the instruction is unpredicated (R91). -/
def fmlalVector {n : Nat} (fp : Single → Half → Half → Single) (i index : Nat) (op1 op2 op3 : BitVec n) : BitVec n :=
  buildVector n fun e => fp (elem op3 e 32) (elem op1 (2 * e + i) 16) (elem op2 (segmentElement e index) 16)

/-- One pass of the loops over `r` and `i`: ZA vector `k` is read, combined and written back (R80). -/
def fmlalVectorAt (s : State) (n m index i r k : Nat) (za : ZaArray s.cfg.svl.bits) : ZaArray s.cfg.svl.bits :=
  zaWrite za k (fmlalVector (fun a x y => fpMulAddHZa s.cfg a x y s.fpcr) i index (s.zReg (n + r)) (s.zReg m)
    (zaRead za k))

/-- The ZA array after the operation: the loops over `r = 0 .. nreg-1` and `i = 0, 1`, in the source's order (R80). -/
def fmlalZa (nreg : Nat) (v : VSel) (offs n m index : Nat) (s : State) : ZaArray s.cfg.svl.bits :=
  (List.range nreg).foldl (fun za r =>
    (List.range 2).foldl (fun za i =>
      fmlalVectorAt s n m index i r (vecIndex s.currentVL nreg (s.wReg v) offs r i) za) za) s.za

/-- The passes of the loops, one for each pair `(r, i)`, in an order other than the source's: what R87 compares
`fmlalZa` with. -/
def fmlalZaInOrder (order : List (Nat × Nat)) (nreg : Nat) (v : VSel) (offs n m index : Nat) (s : State) :
    ZaArray s.cfg.svl.bits :=
  order.foldl (fun za p =>
    fmlalVectorAt s n m index p.2 p.1 (vecIndex s.currentVL nreg (s.wReg v) offs p.1 p.2) za) s.za

/-- The state after a completed FMLAL: the ZA array and `pc`, nothing else (R83 "Writes", R90). -/
def fmlalNext (nreg : Nat) (v : VSel) (offs n m index : Nat) (s : State) : State :=
  { s with za := fmlalZa nreg v offs n m index s, pc := s.nextPc }

/-- What an instruction of either encoding does: the feature test of its decode block, the check, and the operation, in
the order of 60_exceptions.md R135. The fault carries the instruction's word. -/
def fmlal (i : Instr) (s : State) : Host.Outcome State Fault Refusal :=
  if i.wellFormed then
    match executionFault (encode i) s with
    | some f => raise f
    | none =>
      if altFpRefused s.cfg s.fpcr then .refused .altFpNotSpecified
      else .next (fmlalNext i.nreg i.v i.offs i.n i.m i.index s)
  else .refused .illFormed

/-- FMLAL, one ZA double-vector (40_fmlal_za_indexed.md R83). -/
def execFmlalZaZzi1 (v : VSel) (offs n m index : Nat) (s : State) : Host.Outcome State Fault Refusal :=
  fmlal (.fmlalZaZzi1 v offs n m index) s

/-- FMLAL, two ZA double-vectors, VGx2 (40_fmlal_za_indexed.md R84). -/
def execFmlalZaZzi2xi (v : VSel) (offs n m index : Nat) (s : State) : Host.Outcome State Fault Refusal :=
  fmlal (.fmlalZaZzi2xi v offs n m index) s

/-- FMLAL, four ZA double-vectors, VGx4 (40_fmlal_za_indexed.md R85). -/
def execFmlalZaZzi4xi (v : VSel) (offs n m index : Nat) (s : State) : Host.Outcome State Fault Refusal :=
  fmlal (.fmlalZaZzi4xi v offs n m index) s

end Sys2Proof.Machine
end

