-- ==== Sys2Proof/Machine/Dispatch.lean ====
section
/-!
DEFINITION. The meaning of each instruction, one arm per constructor of `Instr`.
-/

namespace Sys2Proof.Machine

/-- One instruction at a state: its next state, its fault, or a refusal (00_scope.md R12). -/
def exec (i : Instr) (s : State) : Host.Outcome State Fault Refusal :=
  match i with
  | .fmlalZaZzi1 v offs n m index => Sys2Proof.Machine.execFmlalZaZzi1 v offs n m index s
  | .fmlalZaZzi2xi v offs n m index => Sys2Proof.Machine.execFmlalZaZzi2xi v offs n m index s
  | .fmlalZaZzi4xi v offs n m index => Sys2Proof.Machine.execFmlalZaZzi4xi v offs n m index s

end Sys2Proof.Machine
end

