-- ==== Sys2Proof/Machine/Step.lean ====
section
/-!
DEFINITION. One step of the machine (00_scope.md R12): fetch the word at `pc` (20_memory.md R42), decode it
(30_encoding.md R63), execute it.
-/

namespace Sys2Proof.Machine

/-- The step. Nothing stands around `exec`: the instruction itself moves `pc` (40_fmlal_za_indexed.md R90). -/
def step (s : State) : Host.Outcome State Fault Refusal :=
  match fetch s with
  | .ended => .refused .endOfRun
  | .outside => .refused (.fetchOutside s.pc)
  | .word w =>
    match decode w with
    | .ok i => exec i s
    | .error _ => .refused (.notInScope w)

/-- The state with a table row's word where `step` fetches next (log entry 8). If `pc` lies in the program, the word
there is replaced; else the one word is placed as the program, at `pc` with its low two bits cleared. -/
def State.withFetchWord (s : State) (nbits w : Nat) : State :=
  let word : Word := BitVec.ofNat 32 (w % 2 ^ nbits)
  match fetch s, s.fetchIndex with
  | .word _, some k => { s with prog := s.prog.set k word }
  | _, _ =>
    { s with
      prog := [word]
      base := BitVec.ofNat 64 (s.pc.toNat / 4 * 4)
      pc := BitVec.ofNat 64 (s.pc.toNat / 4 * 4) }

end Sys2Proof.Machine
end

