-- ==== Sys2Proof/Machine/Assembler.lean ====
section
/-!
DEFINITION. The assembler syntax of the three forms (30_encoding.md R66 to R72) as operands a source line can hold:
register numbers and offsets are plain numbers, and a line with an operand outside its legal values (R69) assembles to
nothing. Letter case, spacing and diagnostics are not in the spec (R71).
-/

namespace Sys2Proof.Machine

/-- A source line. `offs1:offs2` is the offset range, `vg` says that the optional symbol VGx2 or VGx4 is written (R70). -/
inductive AsmLine where
  /-- `FMLAL ZA.S[<Wv>, <offs1>:<offs2>], <Zn>.H, <Zm>.H[<index>]` (R66) -/
  | one (wv offs1 offs2 zn zm index : Nat)
  /-- the line with a register pair `<Zn1>.H-<Zn2>.H` (R67) -/
  | two (vg : Bool) (wv offs1 offs2 zn1 zn2 zm index : Nat)
  /-- the line with a register range `<Zn1>.H-<Zn4>.H` (R68) -/
  | four (vg : Bool) (wv offs1 offs2 zn1 zn4 zm index : Nat)
deriving DecidableEq, Repr

/-- `<Wv>`: W8 to W11 (R69). -/
def vselOfNumber (wv : Nat) : Option VSel :=
  match wv with
  | 8 => some .w8
  | 9 => some .w9
  | 10 => some .w10
  | 11 => some .w11
  | _ => none

/-- The instruction if its operands are legal (R69). -/
def legalInstr (i : Instr) : Option Instr := if i.wellFormed then some i else none

/-- The instruction a line stands for: `<offs2> = <offs1> + 1`, `<Zn2> = <Zn1> + 1`, `<Zn4> = <Zn1> + 3`, and every
operand in its legal range (R69). The vector group symbol makes no difference (R70). -/
def AsmLine.instr : AsmLine → Option Instr
  | .one wv offs1 offs2 zn zm index =>
    if offs2 = offs1 + 1 then (vselOfNumber wv).bind fun v => legalInstr (.fmlalZaZzi1 v offs1 zn zm index) else none
  | .two _ wv offs1 offs2 zn1 zn2 zm index =>
    if offs2 = offs1 + 1 ∧ zn2 = zn1 + 1
    then (vselOfNumber wv).bind fun v => legalInstr (.fmlalZaZzi2xi v offs1 zn1 zm index) else none
  | .four _ wv offs1 offs2 zn1 zn4 zm index =>
    if offs2 = offs1 + 1 ∧ zn4 = zn1 + 3
    then (vselOfNumber wv).bind fun v => legalInstr (.fmlalZaZzi4xi v offs1 zn1 zm index) else none

/-- The word a line assembles to, if it has one (R69, R72). -/
def AsmLine.assemble (l : AsmLine) : Option Word := l.instr.map encode

/-- The line a disassembler prints: with the vector group symbol, which is preferred (R70). -/
def disassemble : Instr → AsmLine
  | .fmlalZaZzi1 v offs n m index => .one v.number offs (offs + 1) n m index
  | .fmlalZaZzi2xi v offs n m index => .two true v.number offs (offs + 1) n (n + 1) m index
  | .fmlalZaZzi4xi v offs n m index => .four true v.number offs (offs + 1) n (n + 3) m index

/-- The same line with the vector group symbol written, the spelling preferred for disassembly (R70). -/
def AsmLine.preferred : AsmLine → AsmLine
  | .one wv offs1 offs2 zn zm index => .one wv offs1 offs2 zn zm index
  | .two _ wv offs1 offs2 zn1 zn2 zm index => .two true wv offs1 offs2 zn1 zn2 zm index
  | .four _ wv offs1 offs2 zn1 zn4 zm index => .four true wv offs1 offs2 zn1 zn4 zm index

/-- The literal braces of the register ranges (R67, R68). -/
def openBrace : String := String.singleton (Char.ofNat 123)
def closeBrace : String := String.singleton (Char.ofNat 125)

/-- `ZA.S[<Wv>, <offs1>:<offs2>` and the vector group symbol, in the source's spelling (R66 to R68, R71). -/
def zaOperandText (wv offs1 offs2 : Nat) (group : String) : String :=
  "FMLAL  ZA.S[W" ++ toString wv ++ ", " ++ toString offs1 ++ ":" ++ toString offs2 ++ group ++ "], "

/-- `<Zm>.H[<index>]`. -/
def indexedText (zm index : Nat) : String := ", Z" ++ toString zm ++ ".H[" ++ toString index ++ "]"

/-- A register range between its literal braces. -/
def rangeText (first last : Nat) : String :=
  openBrace ++ " Z" ++ toString first ++ ".H-Z" ++ toString last ++ ".H " ++ closeBrace

/-- The text of a line, as the source's own lines are spelled (R66, R67, R68, R71). -/
def AsmLine.text : AsmLine → String
  | .one wv offs1 offs2 zn zm index =>
    zaOperandText wv offs1 offs2 "" ++ "Z" ++ toString zn ++ ".H" ++ indexedText zm index
  | .two vg wv offs1 offs2 zn1 zn2 zm index =>
    zaOperandText wv offs1 offs2 (if vg then ", VGx2" else "") ++ rangeText zn1 zn2 ++ indexedText zm index
  | .four vg wv offs1 offs2 zn1 zn4 zm index =>
    zaOperandText wv offs1 offs2 (if vg then ", VGx4" else "") ++ rangeText zn1 zn4 ++ indexedText zm index

end Sys2Proof.Machine
end

