-- ==== Sys2Proof/Machine/Run.lean ====
section
/-!
DEFINITION. Runs: how a run starts (the launch premises of 70_reset_and_hazards.md R152), how it goes on, and how it
ends (R153, 60_exceptions.md R136, 00_scope.md R12). The mark of a run is not state of the machine.
-/

namespace Sys2Proof.Machine

/-! ## Launch premises (R151, R152) -/

/-- `Launch.config_ok`: `SVL` is a positive multiple of 128. The type of `SVL` says so; every function here is total. -/
def configOk (c : Config) : Prop := 0 < c.svl.bits ∧ c.svl.bits % 128 = 0

/-- `Launch.enabled`: the four premises of R151, under which an FMLAL executes rather than faults. -/
def State.enabled (s : State) : Bool :=
  s.cfg.featSme2 && !s.accessTrapped && s.pstate.sm && s.pstate.za

/-- The word matches a format of R52 to R54. -/
def inScope (w : Word) : Bool := hasFormat .one w || hasFormat .two w || hasFormat .four w

/-- The placement part of `Launch.text`: `base` is a multiple of 4 and the program lies below `2^64`. -/
def State.placed (s : State) : Bool :=
  s.baseAligned && decide (s.base.toNat + 4 * s.prog.length ≤ 2 ^ 64)

/-- `Launch.text`: every word matches a format, the program is placed, and `pc = base`. -/
def State.textReady (s : State) : Bool := s.prog.all inScope && s.placed && s.pc == s.base

/-- `Launch.afp_plain`, which matters only under the reference numerics (R152, 41_fp_numerics.md R116). -/
def State.afpPlain (s : State) : Bool := !altFpRefused s.cfg s.fpcr

/-! ## A run (R153) -/

/-- How a run stands. -/
inductive RunMark where
  /-- it goes on; `Launch.no_fault` -/
  | running
  /-- it ended successfully: the state is the final state (R153 a) -/
  | ended
  /-- it ended in a fault (R153 b, R136) -/
  | faulted (f : Fault)
  /-- it ended in a refusal; the mark stays (R153 c, R12) -/
  | refused (r : Refusal)
deriving DecidableEq, Repr

/-- A run: its mark and the state it stands at. -/
structure Run where
  mark : RunMark
  state : State
deriving DecidableEq, Repr

/-- A run at its launch state. -/
def launch (s : State) : Run := ⟨.running, s⟩

/-- The mark and state after one step from `s`: a fault or a refusal leaves the state (R133, R136). -/
def stepMark (s : State) : Run :=
  match step s with
  | .next t => ⟨.running, t⟩
  | .fault f => ⟨.faulted f, s⟩
  | .refused r => ⟨.refused r, s⟩

/-- One step of a run. A run that has ended stays as it is. A word is fetched before the end is looked for (R42). -/
def runStep (r : Run) : Run :=
  match r.mark with
  | .running => if fetch r.state = .ended then ⟨.ended, r.state⟩ else stepMark r.state
  | .ended => r
  | .faulted _ => r
  | .refused _ => r

/-- `k` steps of a run. -/
def runSteps : Nat → Run → Run
  | 0, r => r
  | k + 1, r => runSteps k (runStep r)

/-- `k` steps of the machine that all complete, or `none`. -/
def stepsFrom : Nat → State → Option State
  | 0, s => some s
  | k + 1, s =>
    match step s with
    | .next t => stepsFrom k t
    | .fault _ => none
    | .refused _ => none

end Sys2Proof.Machine
end

