-- ==== Sys2Proof/Safety.lean ====
section
/-!
DEFINITION. What counts as a safe state and a safe run, and the exact values of floating-point elements, in the terms
the statements use.
-/

namespace Sys2Proof

open Machine

/-! ## States of a run -/

/-- The program is placed (20_memory.md R42), every word of it is an FMLAL, and `pc` is at one of its words or at its
end (the part of `Launch.text`, R152, that a step keeps). -/
def InText (s : State) : Prop :=
  s.prog.all inScope = true ∧ s.placed = true ∧
    ∃ k, k ≤ s.prog.length ∧ s.pc = s.base + BitVec.ofNat 64 (4 * k)

/-- The next instruction, if any, executes: the premises of 70_reset_and_hazards.md R151 and `Launch.afp_plain` (R152). -/
def Ready (s : State) : Prop := InText s ∧ s.enabled = true ∧ s.afpPlain = true

/-- The premises of 70_reset_and_hazards.md R152 that are about the state. `Launch.config_ok` and `Launch.written` hold
of every state: by the type of `SVL`, and because each register holds a value. -/
def LaunchReady (s : State) : Prop := s.textReady = true ∧ s.enabled = true ∧ s.afpPlain = true

/-- The predicate `sme_access_trapped` is one of the constant ones, so it cannot change as the state does. -/
abbrev AccessConstant (s : State) : Prop := s.cfg.access ≠ .byState

/-! ## Values of elements (41_fp_numerics.md R101) -/

/-- The exact number a dyadic rational stands for. -/
def Machine.Exact.toRat (r : Exact) : ℚ := r.num / 2 ^ r.scale

/-- The value of a finite half-precision element, as the table of R101 gives it. -/
def halfValue (h : Half) : ℚ :=
  (if halfSign h then -1 else 1) *
    (if halfExp h = 0 then (2 : ℚ) ^ (-14 : Int) * (halfFrac h / 2 ^ 10)
     else (2 : ℚ) ^ ((halfExp h : Int) - 15) * (1 + halfFrac h / 2 ^ 10))

/-- The value of a finite single-precision element, as the table of R101 gives it. -/
def singleValue (a : Single) : ℚ :=
  (if singleSign a then -1 else 1) *
    (if singleExp a = 0 then (2 : ℚ) ^ (-126 : Int) * (singleFrac a / 2 ^ 23)
     else (2 : ℚ) ^ ((singleExp a : Int) - 127) * (1 + singleFrac a / 2 ^ 23))

/-- Not an infinity and not a NaN (R101). -/
abbrev HalfFinite (h : Half) : Prop := halfExp h ≠ 31
abbrev SingleFinite (a : Single) : Prop := singleExp a ≠ 255

/-- An all-ones exponent with a non-zero fraction (R101). -/
abbrev HalfNaN (h : Half) : Prop := halfExp h = 31 ∧ halfFrac h ≠ 0
abbrev SingleNaN (a : Single) : Prop := singleExp a = 255 ∧ singleFrac a ≠ 0

/-- An all-ones exponent with a zero fraction (R101). -/
abbrev HalfInf (h : Half) : Prop := halfExp h = 31 ∧ halfFrac h = 0
abbrev SingleInf (a : Single) : Prop := singleExp a = 255 ∧ singleFrac a = 0

/-- The operand counts as a zero: it is one, or a denormal that FPCR flushes (R105, R106). -/
abbrev HalfZero (fpcr : Word) (h : Half) : Prop := halfExp h = 0 ∧ (halfFrac h = 0 ∨ fpcrFz16 fpcr = true)
abbrev SingleZero (fpcr : Word) (a : Single) : Prop := singleExp a = 0 ∧ (singleFrac a = 0 ∨ fpcrFz fpcr = true)

/-- The value an operand enters the sum with: 0 if FPCR flushes it (R105, R106). -/
def usedHalf (fpcr : Word) (h : Half) : ℚ := if halfExp h = 0 ∧ fpcrFz16 fpcr = true then 0 else halfValue h
def usedSingle (fpcr : Word) (a : Single) : ℚ := if singleExp a = 0 ∧ fpcrFz fpcr = true then 0 else singleValue a

/-- The exact sum `addend + op1 * op2` (R102). -/
def exactSum (addend : Single) (op1 op2 : Half) (fpcr : Word) : ℚ :=
  usedSingle fpcr addend + usedHalf fpcr op1 * usedHalf fpcr op2

/-- The sign bit inverted. -/
def negHalf (h : Half) : Half := h ^^^ 0x8000#16
def negSingle (a : Single) : Single := a ^^^ 0x80000000#32

end Sys2Proof
end

