-- ==== Sys2Proof/Certificates/Slice0/Obligations.lean ====
section
/-!
DEFINITION. The statements about the model, for the provers. Each docstring names the rules of spec/ it rests on.
`s.enabled` is the four premises of 70_reset_and_hazards.md R151, `s.afpPlain` is `Launch.afp_plain` of R152.
-/

open Sys2Proof Sys2Proof.Machine

/-! ## Decoding and encoding (30_encoding.md) -/

/-- R52, R53, R54: a word has a format exactly when `w AND mask = match`, which is when the diagram's fixed bits are
right; decoding then reads the diagram's fields, at the positions each diagram gives them. -/
def Obligations.FormatsFollowDiagrams : Prop :=
  ∀ w : Word,
    (hasFormat .one w = true ↔ w &&& 0xFFF01018#32 = 0xC1801000#32) ∧
    (hasFormat .two w = true ↔ w &&& 0xFFF09038#32 = 0xC1901000#32) ∧
    (hasFormat .four w = true ↔ w &&& 0xFFF09078#32 = 0xC1909000#32) ∧
    (hasFormat .one w = true ↔
      w.extractLsb' 20 12 = 0b110000011000#12 ∧ w.extractLsb' 12 1 = 1#1 ∧ w.extractLsb' 3 2 = 0#2) ∧
    (hasFormat .two w = true ↔
      w.extractLsb' 20 12 = 0b110000011001#12 ∧ w.extractLsb' 15 1 = 0#1 ∧ w.extractLsb' 12 1 = 1#1 ∧
        w.extractLsb' 3 3 = 0#3) ∧
    (hasFormat .four w = true ↔
      w.extractLsb' 20 12 = 0b110000011001#12 ∧ w.extractLsb' 15 1 = 1#1 ∧ w.extractLsb' 12 1 = 1#1 ∧
        w.extractLsb' 3 4 = 0#4) ∧
    (hasFormat .one w = true → ∃ v : VSel, v.code = w.extractLsb' 13 2 ∧
      decode w = .ok (.fmlalZaZzi1 v (2 * (w.extractLsb' 0 3).toNat) (w.extractLsb' 5 5).toNat
        (w.extractLsb' 16 4).toNat (w.extractLsb' 15 1 ++ w.extractLsb' 10 2).toNat)) ∧
    (hasFormat .two w = true → ∃ v : VSel, v.code = w.extractLsb' 13 2 ∧
      decode w = .ok (.fmlalZaZzi2xi v (2 * (w.extractLsb' 0 2).toNat) (2 * (w.extractLsb' 6 4).toNat)
        (w.extractLsb' 16 4).toNat (w.extractLsb' 10 2 ++ w.extractLsb' 2 1).toNat)) ∧
    (hasFormat .four w = true → ∃ v : VSel, v.code = w.extractLsb' 13 2 ∧
      decode w = .ok (.fmlalZaZzi4xi v (2 * (w.extractLsb' 0 2).toNat) (4 * (w.extractLsb' 7 3).toNat)
        (w.extractLsb' 16 4).toNat (w.extractLsb' 10 2 ++ w.extractLsb' 2 1).toNat))

/-- R56, R58, R60: in every format `v = 8 + uint(Rv)` is 8 to 11, `m = uint(Zm)` is 0 to 15, and `index` is
`4 * bits[15] + uint(bits[11:10])` in za_zzi_1 and `2 * uint(bits[11:10]) + bits[2]` in the others, 0 to 7. -/
def Obligations.OperandNumbersAreUnsignedFields : Prop :=
  ∀ (w : Word) (i : Instr), decode w = .ok i →
    i.v.number = 8 + w.toNat / 2 ^ 13 % 4 ∧ 8 ≤ i.v.number ∧ i.v.number ≤ 11 ∧
    i.m = w.toNat / 2 ^ 16 % 16 ∧ i.m ≤ 15 ∧
    i.index = (match i.form with
      | .one => 4 * (w.toNat / 2 ^ 15 % 2) + w.toNat / 2 ^ 10 % 4
      | .two => 2 * (w.toNat / 2 ^ 10 % 4) + w.toNat / 2 ^ 2 % 2
      | .four => 2 * (w.toNat / 2 ^ 10 % 4) + w.toNat / 2 ^ 2 % 2) ∧
    i.index ≤ 7

/-- R59: `offset` is 2 times the field `off3` (bits 2:0) in za_zzi_1, an even number in 0 to 14, and 2 times the field
`off2` (bits 1:0) in the others, an even number in 0 to 6; the assembler's `<offs1>` is `offset`, `<offs2>` is one more. -/
def Obligations.OffsetIsTwiceItsField : Prop :=
  ∀ (w : Word) (i : Instr), decode w = .ok i →
    i.offs = (match i.form with
      | .one => 2 * (w.toNat % 8)
      | .two => 2 * (w.toNat % 4)
      | .four => 2 * (w.toNat % 4)) ∧
    i.offs % 2 = 0 ∧
    i.offs ≤ (match i.form with | .one => 14 | .two => 6 | .four => 6) ∧
    (match disassemble i with
      | .one _ offs1 offs2 _ _ _ => offs1 = i.offs ∧ offs2 = i.offs + 1
      | .two _ _ offs1 offs2 _ _ _ _ => offs1 = i.offs ∧ offs2 = i.offs + 1
      | .four _ _ offs1 offs2 _ _ _ _ => offs1 = i.offs ∧ offs2 = i.offs + 1)

/-- R55, R62: the three formats are pairwise disjoint; a word with bit 3 or bit 4 set has none, nor has one that is
za_zzi_2xi but for bit 5, or za_zzi_4xi but for bits 6:5. -/
def Obligations.FormatsAreDisjoint : Prop :=
  (∀ (w : Word) (f g : Form), hasFormat f w = true → hasFormat g w = true → f = g) ∧
  (∀ (w : Word) (f : Form), w.getLsbD 3 = true ∨ w.getLsbD 4 = true → hasFormat f w = false) ∧
  (∀ (w : Word) (f : Form), hasFormat .two (w &&& ~~~0x20#32) = true → w.getLsbD 5 = true → hasFormat f w = false) ∧
  (∀ (w : Word) (f : Form), hasFormat .four (w &&& ~~~0x60#32) = true → w.getLsbD 5 = true ∨ w.getLsbD 6 = true →
    hasFormat f w = false)

/-- R72: decoding an encoded instruction gives it back, for every form and every operand value that has an encoding. -/
def Obligations.DecodeInvertsEncode : Prop :=
  ∀ i : Instr, i.WellFormed → decode (encode i) = .ok i

/-- R65, R72: every word of a format is a well-formed instruction, and encoding that gives the word back. -/
def Obligations.EncodeInvertsDecode : Prop :=
  ∀ w : Word, inScope w = true → ∃ i, decode w = .ok i ∧ i.WellFormed ∧ encode i = w

/-- R72: the encoder is the formula `enc_1`, `enc_2xi`, `enc_4xi`. -/
def Obligations.EncodeFollowsFormulas : Prop :=
  ∀ (v : VSel) (offs n m index : Nat),
    ((Instr.fmlalZaZzi1 v offs n m index).WellFormed →
      encode (.fmlalZaZzi1 v offs n m index) =
        0xC1801000#32 ||| (BitVec.ofNat 32 m <<< 16) ||| (BitVec.ofNat 32 (index / 4) <<< 15) |||
          (BitVec.ofNat 32 (v.number - 8) <<< 13) ||| (BitVec.ofNat 32 (index % 4) <<< 10) |||
          (BitVec.ofNat 32 n <<< 5) ||| BitVec.ofNat 32 (offs / 2)) ∧
    ((Instr.fmlalZaZzi2xi v offs n m index).WellFormed →
      encode (.fmlalZaZzi2xi v offs n m index) =
        0xC1901000#32 ||| (BitVec.ofNat 32 m <<< 16) ||| (BitVec.ofNat 32 (v.number - 8) <<< 13) |||
          (BitVec.ofNat 32 (index / 2) <<< 10) ||| (BitVec.ofNat 32 (n / 2) <<< 6) |||
          (BitVec.ofNat 32 (index % 2) <<< 2) ||| BitVec.ofNat 32 (offs / 2)) ∧
    ((Instr.fmlalZaZzi4xi v offs n m index).WellFormed →
      encode (.fmlalZaZzi4xi v offs n m index) =
        0xC1909000#32 ||| (BitVec.ofNat 32 m <<< 16) ||| (BitVec.ofNat 32 (v.number - 8) <<< 13) |||
          (BitVec.ofNat 32 (index / 2) <<< 10) ||| (BitVec.ofNat 32 (n / 4) <<< 7) |||
          (BitVec.ofNat 32 (index % 2) <<< 2) ||| BitVec.ofNat 32 (offs / 2))

/-- R52 to R54, R83 to R85: the worked words of the three forms. -/
def Obligations.WorkedWordsDecode : Prop :=
  decode 0xC1811800#32 = .ok (.fmlalZaZzi1 .w8 0 0 1 2) ∧
  decode 0xC18FFFE7#32 = .ok (.fmlalZaZzi1 .w11 14 31 15 7) ∧
  decode 0xC1943845#32 = .ok (.fmlalZaZzi2xi .w9 2 2 4 5) ∧
  decode 0xC19F7FC7#32 = .ok (.fmlalZaZzi2xi .w11 6 30 15 7) ∧
  decode 0xC1909085#32 = .ok (.fmlalZaZzi4xi .w8 2 4 0 1) ∧
  decode 0xC19FFF87#32 = .ok (.fmlalZaZzi4xi .w11 6 28 15 7)

/-- R69, R70: the line a disassembler prints assembles to the instruction's word. -/
def Obligations.DisassembledLineAssembles : Prop :=
  ∀ i : Instr, i.WellFormed → (disassemble i).assemble = some (encode i)

/-- R69, R70: a line that assembles is, with the vector group symbol written, the disassembly of its word; so a line with
an operand outside its legal values has no word. -/
def Obligations.AssembledLinesAreLegal : Prop :=
  ∀ (l : AsmLine) (w : Word), l.assemble = some w → ∃ i, decode w = .ok i ∧ disassemble i = l.preferred

/-- R70: leaving the vector group symbol out gives the same word. -/
def Obligations.VectorGroupSymbolIsOptional : Prop :=
  ∀ l : AsmLine, l.preferred.assemble = l.assemble

/-! ## Fetch and step (00_scope.md R12, 20_memory.md R42) -/

/-- R42: for a placed program, the word at `pc` is `prog[(pc - base) / 4]`; `pc = base + 4 * len` ends the run; a fetch
at any other `pc` is refused. The premise on the length leaves out only a program that fills all `2^64` bytes, whose end
is its own first word (log entry 10). That the end of a run is the refusal `endOfRun` is the model's (log entry 9). -/
def Obligations.FetchFollowsProgramText : Prop :=
  ∀ s : State, s.base.toNat % 4 = 0 → s.base.toNat + 4 * s.prog.length ≤ 2 ^ 64 → s.prog.length < 2 ^ 62 →
    (∀ k w, s.prog[k]? = some w → s.pc.toNat = s.base.toNat + 4 * k → fetch s = .word w) ∧
    (s.pc.toNat = (s.base.toNat + 4 * s.prog.length) % 2 ^ 64 → fetch s = .ended ∧ step s = .refused .endOfRun) ∧
    ((∀ k < s.prog.length, s.pc.toNat ≠ s.base.toNat + 4 * k) →
      s.pc.toNat ≠ (s.base.toNat + 4 * s.prog.length) % 2 ^ 64 →
      fetch s = .outside ∧ step s = .refused (.fetchOutside s.pc))

/-- A step runs the instruction its word decodes to, and nothing stands around `exec`. -/
def Obligations.StepRunsDecodedInstruction : Prop :=
  ∀ (s : State) (w : Word) (i : Instr), fetch s = .word w → decode w = .ok i → step s = exec i s

/-- R64: a word of no format is refused by name, whatever the state holds; it is not UNDEFINED and not a no-op. -/
def Obligations.OtherWordsAreRefused : Prop :=
  ∀ w : Word, inScope w = false →
    decode w = .error (.notInScope w) ∧ ∀ s : State, fetch s = .word w → step s = .refused (.notInScope w)

/-- R42, R50: four bytes are cut into a word least significant byte first, a list of fewer is no instruction, and the
bytes of an instruction's word decode to it. The byte order is the spec's general knowledge (log entry 7). -/
def Obligations.BytesAreCutLittleEndian : Prop :=
  (∀ b0 b1 b2 b3 : Byte, (wordOfBytes b0 b1 b2 b3).toNat =
    b0.toNat + 2 ^ 8 * b1.toNat + 2 ^ 16 * b2.toNat + 2 ^ 24 * b3.toNat) ∧
  (∀ bs : List Byte, bs.length < 4 → decodeBytes bs = .error .truncated) ∧
  (∀ (i : Instr) (rest : List Byte), i.WellFormed → decodeBytes (bytesOfWord (encode i) ++ rest) = .ok (i, rest))

/-- Placing a word where the next fetch reads (log entry 8) makes it the next word fetched, and leaves the registers. -/
def Obligations.PlacedWordIsFetchedNext : Prop :=
  ∀ (s : State) (w : Word),
    fetch (s.withFetchWord 32 w.toNat) = .word w ∧
    ∃ (prog : List Word) (base pc : DWord),
      s.withFetchWord 32 w.toNat = { s with prog := prog, base := base, pc := pc } ∧
      (s.pc.toNat % 4 = 0 → pc = s.pc)

/-! ## Faults and refusals (60_exceptions.md) -/

/-- R135: for one word the outcomes are tested in this order and the first that applies is the outcome. The refusal
before execution is R116's. -/
def Obligations.OutcomesAreTestedInOrder : Prop :=
  ∀ (s : State) (w : Word), fetch s = .word w →
    (inScope w = false → step s = .refused (.notInScope w)) ∧
    (inScope w = true → s.cfg.featSme2 = false → step s = .fault (.undefined w s.pc)) ∧
    (inScope w = true → s.cfg.featSme2 = true → s.accessTrapped = true →
      step s = .fault (.smeAccessTrap .accessTrapped w s.pc)) ∧
    (inScope w = true → s.cfg.featSme2 = true → s.accessTrapped = false → s.pstate.sm = false →
      step s = .fault (.smeAccessTrap .notStreaming w s.pc)) ∧
    (inScope w = true → s.cfg.featSme2 = true → s.accessTrapped = false → s.pstate.sm = true → s.pstate.za = false →
      step s = .fault (.smeAccessTrap .inactiveZa w s.pc)) ∧
    (inScope w = true → s.cfg.featSme2 = true → s.accessTrapped = false → s.pstate.sm = true → s.pstate.za = true →
      altFpRefused s.cfg s.fpcr = false → ∃ t, step s = .next t)

/-- R130: an instruction can end in exactly these faults, each raised when the rule says. -/
def Obligations.FaultsAreExactlyFour : Prop :=
  ∀ (i : Instr) (s : State) (f : Fault), exec i s = .fault f →
    (f = .undefined (encode i) s.pc ∧ s.cfg.featSme2 = false) ∨
    (s.cfg.featSme2 = true ∧
      ((f = .smeAccessTrap .accessTrapped (encode i) s.pc ∧ s.accessTrapped = true) ∨
       (f = .smeAccessTrap .notStreaming (encode i) s.pc ∧ s.accessTrapped = false ∧ s.pstate.sm = false) ∨
       (f = .smeAccessTrap .inactiveZa (encode i) s.pc ∧ s.accessTrapped = false ∧ s.pstate.sm = true ∧
         s.pstate.za = false)))

/-- R131: without FEAT_SME2 every word of the three formats is UNDEFINED, whatever the registers, the modes and the
floating-point configuration are. -/
def Obligations.UndefinedWithoutFeature : Prop :=
  ∀ (i : Instr) (s : State), i.WellFormed → s.cfg.featSme2 = false → exec i s = .fault (.undefined (encode i) s.pc)

/-- R151: an FMLAL faults exactly when one of the four premises fails: it answers no fault exactly when all hold, in
every register state. That it then completes, or is refused by R116, is in `OutcomesAreTestedInOrder` and
`RefusalsOfExecAreExactlyTwo`. -/
def Obligations.FaultsExactlyWhenNotEnabled : Prop :=
  ∀ (i : Instr) (s : State), i.WellFormed →
    ((¬ ∃ f, exec i s = .fault f) ↔
      s.cfg.featSme2 = true ∧ s.accessTrapped = false ∧ s.pstate.sm = true ∧ s.pstate.za = true)

/-- R116: an instruction is refused exactly when it would execute, the numerics are the reference ones, and `feat_afp`
holds with `AH` (bit 1) or `FIZ` (bit 0) set; or when it is no instruction any word encodes (R69). -/
def Obligations.RefusalsOfExecAreExactlyTwo : Prop :=
  ∀ (i : Instr) (s : State) (q : Refusal),
    exec i s = .refused q ↔
      (q = .illFormed ∧ ¬ i.WellFormed) ∨
      (q = .altFpNotSpecified ∧ i.WellFormed ∧ s.enabled = true ∧ s.cfg.numerics = .reference ∧
        s.cfg.featAfp = true ∧ (s.fpcr.getLsbD 1 = true ∨ s.fpcr.getLsbD 0 = true))

/-- R133, R136, R12: a fault or a refusal writes no state, and the mark of a run that has ended stays. -/
def Obligations.EndedRunsKeepMarkAndState : Prop :=
  (∀ (s : State) (f : Fault) (k : Nat), step s = .fault f → runSteps (k + 1) (launch s) = ⟨.faulted f, s⟩) ∧
  (∀ (s : State) (q : Refusal) (k : Nat), step s = .refused q → q ≠ .endOfRun →
    runSteps (k + 1) (launch s) = ⟨.refused q, s⟩) ∧
  (∀ (s : State) (k : Nat), fetch s = .ended → runSteps (k + 1) (launch s) = ⟨.ended, s⟩)

/-! ## The operation (40_fmlal_za_indexed.md) -/

/-- R82: for ZA vector `k = vec0 + r * vstride + i` and each `e`, the new element is `fp_muladdh_za` of the old element
`e` of `za[k]`, element `2 * e + i` of `z[n + r]`, element `8 * floor(e / 4) + index` of `z[m]`, and `fpcr`. All
elements of the selected vectors are replaced. For every form, and every state an instruction executes in (R151); it
then completes with `pc + 4` (R90; log entry 20) and changes nothing but the ZA array and `pc` (R83 to R85). -/
def Obligations.ElementCorrespondence : Prop :=
  ∀ (i : Instr) (s : State), i.WellFormed → s.enabled = true → s.afpPlain = true →
    ∃ za' : ZaArray s.cfg.svl.bits,
      exec i s = .next { s with za := za', pc := s.pc + 4#64 } ∧
      ∀ r < i.nreg, ∀ h < 2, ∀ e < s.cfg.svl.bits / 32,
        let k := vecFirst s.cfg.svl.bits i.nreg (s.wReg i.v) i.offs + r * vstride s.cfg.svl.bits i.nreg + h
        elem (zaRead za' k) e 32 =
          fpMulAddHZa s.cfg (elem (zaRead s.za k) e 32) (elem (s.zReg (i.n + r)) (2 * e + h) 16)
            (elem (s.zReg i.m) (8 * (e / 4) + i.index) 16) s.fpcr

/-- R83: the one-vector form writes the pair `vec0`, `vec0 + 1`, with `vec0` the sum of Wv and the offset modulo
`SVL/8`, its bit 0 cleared; it changes `pc` and nothing else: every other ZA vector keeps its value. -/
def Obligations.OneVectorFormResult : Prop :=
  ∀ (s : State) (v : VSel) (offs n m index : Nat),
    offs % 2 = 0 → offs ≤ 14 → n < 32 → m < 16 → index < 8 → s.enabled = true → s.afpPlain = true →
    ∃ za' : ZaArray s.cfg.svl.bits,
      exec (.fmlalZaZzi1 v offs n m index) s = .next { s with za := za', pc := s.pc + 4#64 } ∧
      let t := ((s.wReg v).toNat + offs) % (s.cfg.svl.bits / 8)
      let vec0 := t - t % 2
      (∀ i < 2, ∀ e < s.cfg.svl.bits / 32,
        elem (zaRead za' (vec0 + i)) e 32 =
          fpMulAddHZa s.cfg (elem (zaRead s.za (vec0 + i)) e 32) (elem (s.zReg n) (2 * e + i) 16)
            (elem (s.zReg m) (8 * (e / 4) + index) 16) s.fpcr) ∧
      (∀ k < s.cfg.svl.bits / 8, k ≠ vec0 → k ≠ vec0 + 1 → zaRead za' k = zaRead s.za k)

/-- R84: the two-vector form writes a pair in each half of the array, `vec0` taken modulo `SVL/16`. -/
def Obligations.TwoVectorFormResult : Prop :=
  ∀ (s : State) (v : VSel) (offs n m index : Nat),
    offs % 2 = 0 → offs ≤ 6 → n % 2 = 0 → n < 32 → m < 16 → index < 8 → s.enabled = true → s.afpPlain = true →
    ∃ za' : ZaArray s.cfg.svl.bits,
      exec (.fmlalZaZzi2xi v offs n m index) s = .next { s with za := za', pc := s.pc + 4#64 } ∧
      let t := ((s.wReg v).toNat + offs) % (s.cfg.svl.bits / 16)
      let vec0 := t - t % 2
      (∀ r < 2, ∀ i < 2, ∀ e < s.cfg.svl.bits / 32,
        elem (zaRead za' (vec0 + r * (s.cfg.svl.bits / 16) + i)) e 32 =
          fpMulAddHZa s.cfg (elem (zaRead s.za (vec0 + r * (s.cfg.svl.bits / 16) + i)) e 32)
            (elem (s.zReg (n + r)) (2 * e + i) 16) (elem (s.zReg m) (8 * (e / 4) + index) 16) s.fpcr) ∧
      (∀ k < s.cfg.svl.bits / 8, (∀ r < 2, ∀ i < 2, k ≠ vec0 + r * (s.cfg.svl.bits / 16) + i) →
        zaRead za' k = zaRead s.za k)

/-- R85: the four-vector form writes a pair in each quarter of the array, `vec0` taken modulo `SVL/32`. -/
def Obligations.FourVectorFormResult : Prop :=
  ∀ (s : State) (v : VSel) (offs n m index : Nat),
    offs % 2 = 0 → offs ≤ 6 → n % 4 = 0 → n < 32 → m < 16 → index < 8 → s.enabled = true → s.afpPlain = true →
    ∃ za' : ZaArray s.cfg.svl.bits,
      exec (.fmlalZaZzi4xi v offs n m index) s = .next { s with za := za', pc := s.pc + 4#64 } ∧
      let t := ((s.wReg v).toNat + offs) % (s.cfg.svl.bits / 32)
      let vec0 := t - t % 2
      (∀ r < 4, ∀ i < 2, ∀ e < s.cfg.svl.bits / 32,
        elem (zaRead za' (vec0 + r * (s.cfg.svl.bits / 32) + i)) e 32 =
          fpMulAddHZa s.cfg (elem (zaRead s.za (vec0 + r * (s.cfg.svl.bits / 32) + i)) e 32)
            (elem (s.zReg (n + r)) (2 * e + i) 16) (elem (s.zReg m) (8 * (e / 4) + index) 16) s.fpcr) ∧
      (∀ k < s.cfg.svl.bits / 8, (∀ r < 4, ∀ i < 2, k ≠ vec0 + r * (s.cfg.svl.bits / 32) + i) →
        zaRead za' k = zaRead s.za k)

/-- R81: the selection of the ZA vectors: `t < vstride`, `vec0` is `t` with bit 0 cleared, the values of `vstride`, that
bit 0 of the select register never matters, and the closed form. For every even offset and legal `SVL`. -/
def Obligations.VectorSelectionArithmetic : Prop :=
  (∀ (len : VectorLength) (f : Form) (wv : Word) (offs : Nat),
    vstride len.bits f.nreg = len.bits / 8 / f.nreg ∧
    vecReduced len.bits f.nreg wv offs = (wv.toNat + offs) % (len.bits / 8 / f.nreg) ∧
    vecReduced len.bits f.nreg wv offs < vstride len.bits f.nreg ∧
    vecFirst len.bits f.nreg wv offs + vecReduced len.bits f.nreg wv offs % 2 = vecReduced len.bits f.nreg wv offs ∧
    (offs % 2 = 0 →
      vecFirst len.bits f.nreg wv offs =
        2 * ((wv.toNat / 2 + offs / 2) % (vstride len.bits f.nreg / 2)) ∧
      ∀ wv' : Word, wv'.toNat / 2 = wv.toNat / 2 →
        vecFirst len.bits f.nreg wv' offs = vecFirst len.bits f.nreg wv offs)) ∧
  [128, 256, 512, 1024, 2048].map (fun n => (vstride n 1, vstride n 2, vstride n 4)) =
    [(16, 8, 4), (32, 16, 8), (64, 32, 16), (128, 64, 32), (256, 128, 64)]

/-- R86: for the architectural vector lengths the select sum may be formed in 32-bit wrapping arithmetic; for `SVL = 384`,
a multiple of 128 that is no power of two, it may not. -/
def Obligations.WrappingSelectShortcut : Prop :=
  (∀ (len : VectorLength) (f : Form) (wv : Word) (offs : Nat), len.isArchitectural = true →
    (wv + BitVec.ofNat 32 offs).toNat % vstride len.bits f.nreg = vecReduced len.bits f.nreg wv offs) ∧
  ∃ wv : Word, (wv + 2#32).toNat % vstride 384 1 ≠ vecReduced 384 1 wv 2

/-- R87: `vec0` is even and at most `vstride - 2`, the selected vector numbers are pairwise distinct, and the order of
the loops over `r` and `i` is not observable: any order of the passes leaves the same ZA array. -/
def Obligations.LoopOrderIsNotObservable : Prop :=
  (∀ (len : VectorLength) (f : Form) (wv : Word) (offs : Nat),
    vecFirst len.bits f.nreg wv offs % 2 = 0 ∧
    vecFirst len.bits f.nreg wv offs ≤ vstride len.bits f.nreg - 2 ∧
    ∀ r i r' i', r < f.nreg → i < 2 → r' < f.nreg → i' < 2 →
      vecIndex len.bits f.nreg wv offs r i = vecIndex len.bits f.nreg wv offs r' i' → r = r' ∧ i = i') ∧
  ∀ (s : State) (f : Form) (v : VSel) (offs n m index : Nat) (order : List (Nat × Nat)),
    order.Perm ((List.range f.nreg).flatMap fun r => (List.range 2).map fun i => (r, i)) →
    fmlalZaInOrder order f.nreg v offs n m index s = fmlalZa f.nreg v offs n m index s

/-- R88: every register, vector and element number the operation forms is in range. -/
def Obligations.EveryNumberIsInRange : Prop :=
  ∀ (len : VectorLength) (i : Instr) (wv : Word), i.WellFormed →
    i.m ≤ 15 ∧ 8 ≤ i.v.number ∧ i.v.number ≤ 11 ∧ i.nreg * vstride len.bits i.nreg = len.bits / 8 ∧
    (∀ r < i.nreg, i.n + r ≤ 31 ∧
      ∀ h < 2, vecIndex len.bits i.nreg wv i.offs r h ≤ len.bits / 8 - 1) ∧
    (∀ e < len.bits / 32,
      (∀ h < 2, 2 * e + h ≤ len.bits / 16 - 1) ∧
      segmentElement e i.index = 8 * (e / 4) + i.index ∧ segmentElement e i.index ≤ len.bits / 16 - 1)

/-- R91, R82: every half-precision element of the first source group is used exactly once as a first factor, and of `Z(m)`
only position `index` of each segment is used. The first part is the index arithmetic. The second says it of `exec`, by
two states whose `Z` registers differ in one element at most, element `j` of `Z(p)`: if `p = n + r`, that element is the
first factor of element `j / 2` of the ZA vector of `r` and `j mod 2`; as a first factor it reaches no other element of
the ZA array, and as an indexed factor only those of segment `(j - index) / 8`, if `p = m`; so an element of a register
outside the group reaches nothing unless `p = m` and `j mod 8 = index`. -/
def Obligations.EveryFirstFactorIsUsedOnce : Prop :=
  (∀ (len : VectorLength) (index : Nat), index < 8 →
    (∀ j < len.bits / 16, ∃! p : Nat × Nat, p.1 < len.bits / 32 ∧ p.2 < 2 ∧ 2 * p.1 + p.2 = j) ∧
    (∀ j, (∃ e < len.bits / 32, segmentElement e index = j) ↔ ∃ g < len.bits / 128, j = 8 * g + index)) ∧
  ∀ (i : Instr) (s : State) (z' : ZFile s.cfg.svl.bits) (p j : Nat),
    let s' : State := { s with z := z' }
    let k (r h : Nat) : Nat := vecIndex s.cfg.svl.bits i.nreg (s.wReg i.v) i.offs r h
    i.WellFormed → s.enabled = true → s'.enabled = true → s.afpPlain = true → p < 32 → j < s.cfg.svl.bits / 16 →
    (∀ p' < 32, ∀ q < s.cfg.svl.bits / 16, p' ≠ p ∨ q ≠ j →
      elem (z'[p']?.getD 0#_) q 16 = elem (s.zReg p') q 16) →
    ∃ zb zb' : ZaArray s.cfg.svl.bits,
      exec i s = .next { s with za := zb, pc := s.pc + 4#64 } ∧
      exec i s' = .next { s with z := z', za := zb', pc := s.pc + 4#64 } ∧
      (∀ r < i.nreg, p = i.n + r →
        elem (zaRead zb' (k r (j % 2))) (j / 2) 32 =
          fpMulAddHZa s.cfg (elem (zaRead s.za (k r (j % 2))) (j / 2) 32) (elem (z'[p]?.getD 0#_) j 16)
            (elem (z'[i.m]?.getD 0#_) (segmentElement (j / 2) i.index) 16) s.fpcr) ∧
      (∀ r < i.nreg, ∀ h < 2, ∀ e < s.cfg.svl.bits / 32,
        ¬(p = i.n + r ∧ h = j % 2 ∧ e = j / 2) → ¬(p = i.m ∧ j = 8 * (e / 4) + i.index) →
        elem (zaRead zb' (k r h)) e 32 = elem (zaRead zb (k r h)) e 32) ∧
      (∀ a < s.cfg.svl.bits / 8, (∀ r < i.nreg, ∀ h < 2, a ≠ k r h) → zaRead zb' a = zaRead zb a) ∧
      ((∀ r < i.nreg, p ≠ i.n + r) → p ≠ i.m ∨ j % 8 ≠ i.index → zb' = zb)

/-- R23, R81, R82, R89, R91: what the selected vectors become depends only on their old values, the elements of the
first source group, the elements of `Z(m)` at position `index`, bits 31:1 of the select register, FPCR and the
parameters of R6, all equal in the two states; no other register, ZA vector or bit reaches them, nor `pc`, `base` or the
program's words, all of which may differ. -/
def Obligations.ResultDependsOnNamedInputsOnly : Prop :=
  ∀ (i : Instr) (s : State) (z' : ZFile s.cfg.svl.bits) (za1 : ZaArray s.cfg.svl.bits)
    (y8 y9 y10 y11 base' pc' : DWord) (prog' : List Word),
    let s' : State :=
      { s with z := z', za := za1, x8 := y8, x9 := y9, x10 := y10, x11 := y11, base := base', pc := pc', prog := prog' }
    i.WellFormed → s.enabled = true → s'.enabled = true → s.afpPlain = true →
    (s'.wReg i.v).toNat / 2 = (s.wReg i.v).toNat / 2 →
    (∀ r < i.nreg, ∀ j < s.cfg.svl.bits / 16,
      elem (z'[i.n + r]?.getD 0#_) j 16 = elem (s.zReg (i.n + r)) j 16) →
    (∀ g < s.cfg.svl.bits / 128,
      elem (z'[i.m]?.getD 0#_) (8 * g + i.index) 16 = elem (s.zReg i.m) (8 * g + i.index) 16) →
    (∀ r < i.nreg, ∀ h < 2,
      zaRead za1 (vecIndex s.cfg.svl.bits i.nreg (s.wReg i.v) i.offs r h) =
        zaRead s.za (vecIndex s.cfg.svl.bits i.nreg (s.wReg i.v) i.offs r h)) →
    ∃ zb zb' : ZaArray s.cfg.svl.bits,
      exec i s = .next { s with za := zb, pc := s.pc + 4#64 } ∧
      exec i s' = .next
        { s with
          z := z', za := zb', x8 := y8, x9 := y9, x10 := y10, x11 := y11, base := base', prog := prog',
          pc := pc' + 4#64 } ∧
      ∀ r < i.nreg, ∀ h < 2,
        zaRead zb' (vecIndex s.cfg.svl.bits i.nreg (s.wReg i.v) i.offs r h) =
          zaRead zb (vecIndex s.cfg.svl.bits i.nreg (s.wReg i.v) i.offs r h)

/-- R89, R154: executing the same instruction twice accumulates twice: the second execution selects the same vectors and
takes the first one's results as its addends. -/
def Obligations.ExecutingTwiceAccumulatesTwice : Prop :=
  ∀ (i : Instr) (s : State), i.WellFormed → s.enabled = true → s.afpPlain = true → AccessConstant s →
    ∃ za1 za2 : ZaArray s.cfg.svl.bits,
      exec i s = .next { s with za := za1, pc := s.pc + 4#64 } ∧
      exec i { s with za := za1, pc := s.pc + 4#64 } = .next { s with za := za2, pc := s.pc + 8#64 } ∧
      ∀ r < i.nreg, ∀ h < 2, ∀ e < s.cfg.svl.bits / 32,
        let k := vecIndex s.cfg.svl.bits i.nreg (s.wReg i.v) i.offs r h
        let x := elem (s.zReg (i.n + r)) (2 * e + h) 16
        let y := elem (s.zReg i.m) (8 * (e / 4) + i.index) 16
        elem (zaRead za2 k) e 32 =
          fpMulAddHZa s.cfg (fpMulAddHZa s.cfg (elem (zaRead s.za k) e 32) x y s.fpcr) x y s.fpcr

/-! ## The whole machine -/

/-- R20, R27, R47, R83 to R85: a step changes the ZA array and `pc` and nothing else: no `Z` register, no `X` register,
not FPCR, no mode bit, no parameter and no word of the program. -/
def Obligations.StepChangesOnlyZaAndPc : Prop :=
  ∀ s t : State, step s = .next t →
    ∃ za' : ZaArray s.cfg.svl.bits, t = { s with za := za', pc := s.pc + 4#64 }

/-- R24, R90: a completed step sets `pc` to `(pc + 4) mod 2^64` and keeps it a multiple of 4; no step transfers control. -/
def Obligations.PcAdvancesByFourAndStaysAligned : Prop :=
  ∀ s t : State, step s = .next t →
    t.pc.toNat = (s.pc.toNat + 4) % 2 ^ 64 ∧ s.pc.toNat % 4 = 0 ∧ t.pc.toNat % 4 = 0

/-- R42, R47, R152: that the program is placed, holds only words of the three formats, and `pc` is at one of its words or
at its end, is kept by every step. -/
def Obligations.StepKeepsProgramTextInvariant : Prop :=
  ∀ s t : State, InText s → step s = .next t → InText t

/-- The state after reset meets the invariant above: no program is placed (R42), and `pc` and `base` are the model's
choice (log entry 4). -/
def Obligations.ResetMeetsProgramTextInvariant : Prop := InText State.reset

/-- R151, R152: the launch premises are the invariant that the next instruction is ready to execute. -/
def Obligations.LaunchStateIsReady : Prop := ∀ s : State, LaunchReady s → Ready s

/-- R151, R153: a ready machine that is not at its program's end completes its step, and is ready again. With a constant
`sme_access_trapped`, so that the predicate cannot turn true as the state changes. -/
def Obligations.ReadyMachineStepsAndStaysReady : Prop :=
  ∀ s : State, Ready s → AccessConstant s →
    (fetch s = .ended ∧ step s = .refused .endOfRun) ∨ ∃ t, step s = .next t ∧ Ready t ∧ AccessConstant t

/-- R153: from a launch state whose premises hold, the program of `len` words ends successfully after exactly `len`
completed steps, at `pc = base + 4 * len`. The premise on the length is that of `FetchFollowsProgramText`. -/
def Obligations.RunEndsAfterLenSteps : Prop :=
  ∀ s : State, LaunchReady s → AccessConstant s → s.prog.length < 2 ^ 62 →
    ∃ t, stepsFrom s.prog.length s = some t ∧
      t.pc = s.base + BitVec.ofNat 64 (4 * s.prog.length) ∧
      (∀ k ≤ s.prog.length, (runSteps k (launch s)).mark = .running) ∧
      runSteps (s.prog.length + 1) (launch s) = ⟨.ended, t⟩

/-- The state after reset (log entries 4, 5, 6; the spec gives no reset value, R33): `PSTATE.SM` is 0, so a word of the
three formats placed at the fetch takes the trap NotStreaming of R132. -/
def Obligations.FirstInstructionAfterResetTraps : Prop :=
  ∀ w : Word, inScope w = true →
    step (State.reset.withFetchWord 32 w.toNat) = .fault (.smeAccessTrap .notStreaming w 0#64)

/-- The parameters' defaults of R6 hold after reset; the registers' values are the model's (log entries 4, 5, 6). -/
def Obligations.ResetHoldsNamedValues : Prop :=
  State.reset.cfg.featSme2 = true ∧ State.reset.cfg.featAfp = false ∧ State.reset.cfg.access = .untrapped ∧
  State.reset.cfg.numerics = .reference ∧ State.reset.cfg.svl.bits = 128 ∧ State.reset.prog = [] ∧
  State.reset.pc = 0#64 ∧ State.reset.base = 0#64 ∧ State.reset.fpcr = 0#32 ∧ State.reset.pstate = ⟨false, false⟩ ∧
  (∀ v : VSel, State.reset.xReg v = 0#64) ∧ (∀ k < 32, State.reset.zReg k = 0#_) ∧
  (∀ k < 16, zaRead State.reset.za k = 0#_)

/-! ## The reference numerics (41_fp_numerics.md section 2; the spec's general knowledge, log entry 3) -/

/-- R100, R116, R118: the function an instruction calls depends on the configuration only through its choice of numerics
and `feat_afp`, and it is the reference definition wherever the configuration chooses that and R116 leaves nothing open. -/
def Obligations.FpFunctionFollowsConfiguration : Prop :=
  (∀ (cfg cfg' : Config) (a : Single) (x y : Half) (c : Word),
    cfg.numerics = cfg'.numerics → cfg.featAfp = cfg'.featAfp → fpMulAddHZa cfg a x y c = fpMulAddHZa cfg' a x y c) ∧
  (∀ (cfg : Config) (a : Single) (x y : Half) (c : Word), cfg.numerics ≠ .configured →
    (cfg.featAfp = false ∨ (c.getLsbD 1 = false ∧ c.getLsbD 0 = false)) →
    fpMulAddHZa cfg a x y c = fpMulAddReference a x y c)

/-- R101, R105, R106: a finite operand that is no flushed denormal is unpacked to its exact value; a zero is, whatever
FPCR holds. -/
def Obligations.UnpackedValuesAreExact : Prop :=
  (∀ (h : Half) (fz16 : Bool), HalfFinite h → ¬(halfExp h = 0 ∧ halfFrac h ≠ 0 ∧ fz16 = true) →
    (unpack16 h fz16).val.toRat = halfValue h) ∧
  (∀ (a : Single) (fz : Bool), SingleFinite a → ¬(singleExp a = 0 ∧ singleFrac a ≠ 0 ∧ fz = true) →
    (unpack32 a fz).val.toRat = singleValue a)

/-- R108, R115, property P4: any NaN operand, quiet or signalling, gives the default NaN, whatever FPCR holds. -/
def Obligations.NaNOperandGivesDefaultNaN : Prop :=
  ∀ (a : Single) (x y : Half) (c : Word), SingleNaN a ∨ HalfNaN x ∨ HalfNaN y →
    fpMulAddReference a x y c = 0x7FC00000#32

/-- R110, R111: with no NaN operand, an infinity times a zero, or an infinite addend and an infinite product of opposite
signs, gives the default NaN; otherwise an infinite addend or product gives the infinity of its sign. -/
def Obligations.InfinitiesAndInvalidOperations : Prop :=
  ∀ (a : Single) (x y : Half) (c : Word), ¬ SingleNaN a → ¬ HalfNaN x → ¬ HalfNaN y →
    ((HalfInf x ∧ HalfZero c y) ∨ (HalfZero c x ∧ HalfInf y) →
      fpMulAddReference a x y c = 0x7FC00000#32) ∧
    ((HalfInf x ∧ ¬ HalfZero c y) ∨ (¬ HalfZero c x ∧ HalfInf y) →
      fpMulAddReference a x y c =
        if SingleInf a ∧ singleSign a ≠ (halfSign x ^^ halfSign y) then 0x7FC00000#32
        else if halfSign x ^^ halfSign y then 0xFF800000#32 else 0x7F800000#32) ∧
    (SingleInf a → ¬ HalfInf x → ¬ HalfInf y →
      fpMulAddReference a x y c = if singleSign a then 0xFF800000#32 else 0x7F800000#32)

/-- R114: when the exact sum of finite operands is zero, two zeros of the same sign give that zero; any other zero sum
gives `+0`, or `-0` in the mode toward minus infinity. -/
def Obligations.ZeroSumsTakeTheirSign : Prop :=
  ∀ (a : Single) (x y : Half) (c : Word), SingleFinite a → HalfFinite x → HalfFinite y → exactSum a x y c = 0 →
    fpMulAddReference a x y c =
      if SingleZero c a ∧ (HalfZero c x ∨ HalfZero c y) ∧ singleSign a = (halfSign x ^^ halfSign y) then
        (if singleSign a then 0x80000000#32 else 0x00000000#32)
      else if roundingMode c = .rm then 0x80000000#32 else 0x00000000#32

/-- R102, R113, property P1: an exact sum that is a normal single-precision number is the result, in every mode. -/
def Obligations.RepresentableSumIsExact : Prop :=
  ∀ (a w : Single) (x y : Half) (c : Word), SingleFinite a → HalfFinite x → HalfFinite y →
    SingleFinite w → singleExp w ≠ 0 → exactSum a x y c = singleValue w →
    fpMulAddReference a x y c = w

/-- R102, property P2: with a `+0` addend and finite non-zero unflushed factors the result is the exact product, which is
always a normal number: the product is never rounded. -/
def Obligations.ProductAloneIsExact : Prop :=
  ∀ (x y : Half) (c : Word), HalfFinite x → HalfFinite y → ¬ HalfZero c x → ¬ HalfZero c y →
    singleValue (fpMulAddReference 0#32 x y c) = halfValue x * halfValue y ∧
    SingleFinite (fpMulAddReference 0#32 x y c) ∧ singleExp (fpMulAddReference 0#32 x y c) ≠ 0

/-- Property P3: the factors commute. -/
def Obligations.FactorsCommute : Prop :=
  ∀ (a : Single) (x y : Half) (c : Word), fpMulAddReference a x y c = fpMulAddReference a y x c

/-- Property P5: a zero factor (or one FPCR flushes) and a finite one leave a finite, non-zero, unflushed addend as it
is, denormal or not. -/
def Obligations.ZeroProductKeepsAddend : Prop :=
  ∀ (a : Single) (x y : Half) (c : Word), SingleFinite a → ¬ SingleZero c a →
    (HalfZero c x ∧ HalfFinite y) ∨ (HalfFinite x ∧ HalfZero c y) →
    fpMulAddReference a x y c = a

/-- Property P7: in the modes to nearest and toward zero, negating the addend and one factor negates the result, but
that the default NaN stays, and so does a `+0` that is not the sum of two like-signed zeros (R114). -/
def Obligations.SignSymmetryInSymmetricModes : Prop :=
  ∀ (a : Single) (x y : Half) (c : Word), roundingMode c = .rn ∨ roundingMode c = .rz →
    fpMulAddReference (negSingle a) (negHalf x) y c =
      if fpMulAddReference a x y c = 0x7FC00000#32 then 0x7FC00000#32
      else if fpMulAddReference a x y c = 0x00000000#32 ∧
          ¬ (SingleZero c a ∧ (HalfZero c x ∨ HalfZero c y) ∧ singleSign a = (halfSign x ^^ halfSign y))
        then 0x00000000#32
      else negSingle (fpMulAddReference a x y c)

/-- R102, R112, R113: rounding toward zero and toward an infinity of a non-zero exact sum: the result is the nearest
single-precision number on the mode's side of it, or the infinity of that side if no finite one lies there. -/
def Obligations.DirectedRoundingIsTight : Prop :=
  ∀ (a : Single) (x y : Half) (c : Word), SingleFinite a → HalfFinite x → HalfFinite y → exactSum a x y c ≠ 0 →
    let r := exactSum a x y c
    let v := fpMulAddReference a x y c
    (roundingMode c = .rz → SingleFinite v ∧ 0 ≤ singleValue v * r ∧ |singleValue v| ≤ |r| ∧
      ∀ w, SingleFinite w → |singleValue w| ≤ |r| → |singleValue w| ≤ |singleValue v|) ∧
    (roundingMode c = .rp → (v = 0x7F800000#32 ∧ ∀ w, SingleFinite w → singleValue w < r) ∨
      (SingleFinite v ∧ r ≤ singleValue v ∧ ∀ w, SingleFinite w → r ≤ singleValue w → singleValue v ≤ singleValue w)) ∧
    (roundingMode c = .rm → (v = 0xFF800000#32 ∧ ∀ w, SingleFinite w → r < singleValue w) ∨
      (SingleFinite v ∧ singleValue v ≤ r ∧ ∀ w, SingleFinite w → singleValue w ≤ r → singleValue w ≤ singleValue v))

/-- R102, R112, R113: rounding to nearest of a non-zero exact sum: the result is a single-precision number at least as
near to it as every other, and where another is as near, its last fraction bit is 0. -/
def Obligations.NearestRoundingIsNearest : Prop :=
  ∀ (a : Single) (x y : Half) (c : Word), SingleFinite a → HalfFinite x → HalfFinite y → exactSum a x y c ≠ 0 →
    roundingMode c = .rn →
    let r := exactSum a x y c
    let v := fpMulAddReference a x y c
    SingleFinite v ∧
      ∀ w, SingleFinite w → |singleValue v - r| ≤ |singleValue w - r| ∧
        (|singleValue v - r| = |singleValue w - r| → singleValue w ≠ singleValue v → singleFrac v % 2 = 0)

/-- R119 (a), (c): with a non-zero product and a non-zero exact sum the sum has magnitude at least `2^-72` and the result
is not a denormal and not a zero; and flushing on output never happens: `FZ` acts only through the addend. -/
def Obligations.OutputIsNeverFlushed : Prop :=
  (∀ (a : Single) (x y : Half) (c : Word), SingleFinite a → HalfFinite x → HalfFinite y →
    ¬ HalfZero c x → ¬ HalfZero c y → exactSum a x y c ≠ 0 →
    (2 : ℚ) ^ (-72 : Int) ≤ |exactSum a x y c| ∧ singleExp (fpMulAddReference a x y c) ≠ 0) ∧
  (∀ (a : Single) (x y : Half) (fz16 : Bool) (mode : RoundingMode),
    mulAddUnpacked (unpack32 a true) (unpack16 x fz16) (unpack16 y fz16) mode true =
      mulAddUnpacked (unpack32 a true) (unpack16 x fz16) (unpack16 y fz16) mode false)

/-- R119 (d): finite operands never give an infinity to nearest or toward zero; toward plus (minus) infinity they do
exactly when the addend is the largest (smallest) finite number and the product is positive (negative). -/
def Obligations.OverflowOnlyFromTheLargestAddend : Prop :=
  ∀ (a : Single) (x y : Half) (c : Word), SingleFinite a → HalfFinite x → HalfFinite y →
    let v := fpMulAddReference a x y c
    ¬ SingleNaN v ∧
    (roundingMode c = .rn ∨ roundingMode c = .rz → SingleFinite v) ∧
    (roundingMode c = .rp → (SingleInf v ↔ a = 0x7F7FFFFF#32 ∧ 0 < usedHalf c x * usedHalf c y)) ∧
    (roundingMode c = .rm → (SingleInf v ↔ a = 0xFF7FFFFF#32 ∧ usedHalf c x * usedHalf c y < 0))

/-- R25: of FPCR the reference numerics read `RMode` (bits 23:22), `FZ` (bit 24) and `FZ16` (bit 19) only: `AHP`, `DN`,
the trap enables and all other bits are ignored. -/
def Obligations.OtherFpcrBitsAreIgnored : Prop :=
  ∀ (a : Single) (x y : Half) (c c' : Word),
    c.getLsbD 19 = c'.getLsbD 19 → c.getLsbD 22 = c'.getLsbD 22 → c.getLsbD 23 = c'.getLsbD 23 →
    c.getLsbD 24 = c'.getLsbD 24 → fpMulAddReference a x y c = fpMulAddReference a x y c'
end

