-- ==== Sys2Proof/Laws/Elem.lean ====
section
/-!
SUPPORT. Laws of the element accessors, of `buildVector` and of the ZA array: a read after a write to the same place
gives what was written, a write leaves every other place alone, and equal elements make equal vectors.
-/

namespace Sys2Proof.Machine

theorem getLsbD_elem {n : Nat} (v : BitVec n) (k w j : Nat) :
    (elem v k w).getLsbD j = (decide (j < w) && v.getLsbD (k * w + j)) := by
  simp [elem, BitVec.getLsbD_extractLsb']

theorem getLsbD_setElem {n w : Nat} (v : BitVec n) (k : Nat) (x : BitVec w) (j : Nat) (hj : j < n) :
    (setElem v k x).getLsbD j = if k * w ≤ j ∧ j < k * w + w then x.getLsbD (j - k * w) else v.getLsbD j := by
  by_cases h : k * w ≤ j
  · by_cases h2 : j < k * w + w
    · have h3 : j - k * w < w := by omega
      simp [setElem, h, h2, hj, h3, show ¬ j < k * w by omega]
    · have h3 : ¬ j - k * w < w := by omega
      have h5 : x.getLsbD (j - k * w) = false := BitVec.getLsbD_of_ge x _ (by omega)
      simp [setElem, h, h2, hj, h3, h5]
  · simp [setElem, h, hj, show j < k * w by omega]

/-- A slice inside the vector reads back what was assigned to it. -/
theorem elem_setElem_same {n w : Nat} (v : BitVec n) (k : Nat) (x : BitVec w) (h : k * w + w ≤ n) :
    elem (setElem v k x) k w = x := by
  apply BitVec.eq_of_getLsbD_eq
  intro j hj
  rw [getLsbD_elem, getLsbD_setElem _ _ _ _ (by omega)]
  simp [hj]

/-- Assigning one slice leaves every other slice of the same width alone. -/
theorem elem_setElem_ne {n w : Nat} (v : BitVec n) (k l : Nat) (x : BitVec w) (h : k ≠ l) :
    elem (setElem v k x) l w = elem v l w := by
  apply BitVec.eq_of_getLsbD_eq
  intro j hj
  rw [getLsbD_elem, getLsbD_elem]
  by_cases hn : l * w + j < n
  · rw [getLsbD_setElem _ _ _ _ hn, if_neg]
    rintro ⟨h1, h2⟩
    rcases Nat.lt_or_gt_of_ne h with hlt | hlt
    · have := Nat.mul_le_mul_right w (show k + 1 ≤ l from hlt)
      rw [Nat.add_mul] at this
      omega
    · have := Nat.mul_le_mul_right w (show l + 1 ≤ k from hlt)
      rw [Nat.add_mul] at this
      omega
  · rw [BitVec.getLsbD_of_ge _ _ (by omega), BitVec.getLsbD_of_ge v _ (by omega)]

/-- The slices of width `w` tile a vector whose width `w` divides: equal slices make equal vectors. -/
theorem eq_of_elem_eq {n w : Nat} (hw : 0 < w) (hd : n % w = 0) (a b : BitVec n)
    (h : ∀ e < n / w, elem a e w = elem b e w) : a = b := by
  apply BitVec.eq_of_getLsbD_eq
  intro j hj
  have he : j / w < n / w := by
    rw [Nat.div_lt_iff_lt_mul hw, Nat.div_mul_cancel (Nat.dvd_of_mod_eq_zero hd)]
    exact hj
  have hm : j % w < w := Nat.mod_lt _ hw
  have := congrArg (fun v => v.getLsbD (j % w)) (h _ he)
  simp only [getLsbD_elem, hm, decide_true, Bool.true_and] at this
  rwa [Nat.div_add_mod'] at this

theorem elem_foldl_setElem {n : Nat} (f : Nat → Single) (l : List Nat) (v : BitVec n) (e : Nat)
    (hl : l.Nodup) (hn : ∀ d ∈ l, d * 32 + 32 ≤ n) :
    elem (l.foldl (fun result d => setElem result d (f d)) v) e 32 = if e ∈ l then f e else elem v e 32 := by
  induction l generalizing v with
  | nil => simp
  | cons d l ih =>
    rw [List.nodup_cons] at hl
    rw [List.foldl_cons, ih _ hl.2 fun d' hd' => hn d' (List.mem_cons_of_mem _ hd')]
    by_cases hed : e = d
    · subst hed
      simp [hl.1, elem_setElem_same _ _ _ (hn e (List.mem_cons_self ..))]
    · simp [hed, elem_setElem_ne _ _ _ _ (Ne.symm hed)]

/-- Every slice of a built vector is the value its index gives: none keeps what `result` held before (R82). -/
theorem elem_buildVector (n : Nat) (f : Nat → Single) (e : Nat) (he : e < n / 32) :
    elem (buildVector n f) e 32 = f e := by
  rw [buildVector, elem_foldl_setElem f _ _ e List.nodup_range, if_pos (List.mem_range.2 he)]
  intro d hd
  rw [List.mem_range] at hd
  omega

/-- A built vector depends on its elements' values alone. -/
theorem buildVector_congr (n : Nat) (f g : Nat → Single) (h : ∀ e < n / 32, f e = g e) :
    buildVector n f = buildVector n g := by
  unfold buildVector
  apply List.foldl_ext
  intro a b hb
  rw [h b (List.mem_range.1 hb)]

/-! ## The ZA array -/

theorem zaRead_zaWrite_same {n : Nat} (za : ZaArray n) (k : Nat) (v : BitVec n) (h : k < n / 8) :
    zaRead (zaWrite za k v) k = v := by
  simp [zaRead, zaWrite, h]

theorem zaRead_zaWrite_ne {n : Nat} (za : ZaArray n) (k l : Nat) (v : BitVec n) (h : k ≠ l) :
    zaRead (zaWrite za k v) l = zaRead za l := by
  simp only [zaRead, zaWrite]
  rw [Vector.getElem?_setIfInBounds_ne h]

/-- Two ZA arrays with equal vectors are equal. -/
theorem za_ext {n : Nat} (a b : ZaArray n) (h : ∀ k < n / 8, zaRead a k = zaRead b k) : a = b := by
  apply Vector.ext
  intro k hk
  have := h k hk
  simpa [zaRead, hk] using this

end Sys2Proof.Machine
end

