-- ==== Sys2Proof/Laws/Encoding.lean ====
section
/-!
SUPPORT. Laws of the encoding: a word's fields and formats as arithmetic on its number, and an encoded word as the sum
of its fields. With them a fact about decoding or encoding is a fact of linear arithmetic.
-/

namespace Sys2Proof

/-- A field is a quotient and a remainder of the word's number. -/
theorem field_eq (w : Word) (lo len : Nat) : field w lo len = w.toNat / 2 ^ lo % 2 ^ len := by
  simp [field, BitVec.extractLsb'_toNat, Nat.shiftRight_eq_div_pow]

theorem toNat_append_eq_add {m n : Nat} (x : BitVec m) (y : BitVec n) :
    (x ++ y).toNat = x.toNat * 2 ^ n + y.toNat := by
  rw [BitVec.toNat_append, ← Nat.shiftLeft_add_eq_or_of_lt y.isLt, Nat.shiftLeft_eq]

/-- The mask test, bit by bit. -/
theorem mask_iff (w mask value : Word) :
    (w &&& mask == value) = true ↔ ∀ j < 32, (w.getLsbD j && mask.getLsbD j) = value.getLsbD j := by
  rw [beq_iff_eq]
  constructor
  · intro h j _
    rw [← h, BitVec.getLsbD_and]
  · intro h
    apply BitVec.eq_of_getLsbD_eq
    intro j hj
    rw [BitVec.getLsbD_and, h j hj]

theorem getLsbD_eq_div (w : Word) (j : Nat) : w.getLsbD j = decide (w.toNat / 2 ^ j % 2 = 1) := by
  rw [BitVec.getLsbD, Nat.testBit_eq_decide_div_mod_eq]

/-- The fixed bits of za_zzi_1 (R52), field by field. -/
theorem hasFormat_one_iff (w : Word) :
    hasFormat .one w = true ↔
      w.toNat / 2 ^ 20 = 0xC18 ∧ w.toNat / 2 ^ 12 % 2 = 1 ∧ w.toNat / 2 ^ 3 % 2 ^ 2 = 0 := by
  have hw := w.isLt
  rw [hasFormat, mask_iff]
  simp only [formatOf, getLsbD_eq_div, Nat.forall_lt_succ_right, BitVec.toNat_ofNat]
  simp
  omega

/-- The fixed bits of za_zzi_2xi (R53), field by field. -/
theorem hasFormat_two_iff (w : Word) :
    hasFormat .two w = true ↔
      w.toNat / 2 ^ 20 = 0xC19 ∧ w.toNat / 2 ^ 15 % 2 = 0 ∧ w.toNat / 2 ^ 12 % 2 = 1 ∧ w.toNat / 2 ^ 3 % 2 ^ 3 = 0 := by
  have hw := w.isLt
  rw [hasFormat, mask_iff]
  simp only [formatOf, getLsbD_eq_div, Nat.forall_lt_succ_right, BitVec.toNat_ofNat]
  simp
  omega

/-- The fixed bits of za_zzi_4xi (R54), field by field. -/
theorem hasFormat_four_iff (w : Word) :
    hasFormat .four w = true ↔
      w.toNat / 2 ^ 20 = 0xC19 ∧ w.toNat / 2 ^ 15 % 2 = 1 ∧ w.toNat / 2 ^ 12 % 2 = 1 ∧ w.toNat / 2 ^ 3 % 2 ^ 4 = 0 := by
  have hw := w.isLt
  rw [hasFormat, mask_iff]
  simp only [formatOf, getLsbD_eq_div, Nat.forall_lt_succ_right, BitVec.toNat_ofNat]
  simp
  omega

theorem code_toNat (v : VSel) : v.code.toNat = v.number - 8 := by cases v <;> rfl

theorem number_range (v : VSel) : 8 ≤ v.number ∧ v.number ≤ 11 := by cases v <;> decide

/-- An encoded word of za_zzi_1 as the sum of its fields (R52). -/
theorem encode_one_toNat (v : VSel) (offs n m index : Nat) :
    (encode (.fmlalZaZzi1 v offs n m index)).toNat =
      0xC1801000 + m % 16 * 2 ^ 16 + index / 4 % 2 * 2 ^ 15 + (v.number - 8) * 2 ^ 13 + index % 4 * 2 ^ 10 +
        n % 32 * 2 ^ 5 + offs / 2 % 8 := by
  simp only [encode, toNat_append_eq_add, code_toNat, BitVec.toNat_ofNat]
  have := number_range v
  omega

/-- An encoded word of za_zzi_2xi as the sum of its fields (R53). -/
theorem encode_two_toNat (v : VSel) (offs n m index : Nat) :
    (encode (.fmlalZaZzi2xi v offs n m index)).toNat =
      0xC1901000 + m % 16 * 2 ^ 16 + (v.number - 8) * 2 ^ 13 + index / 2 % 4 * 2 ^ 10 + n / 2 % 16 * 2 ^ 6 +
        index % 2 * 2 ^ 2 + offs / 2 % 4 := by
  simp only [encode, toNat_append_eq_add, code_toNat, BitVec.toNat_ofNat]
  have := number_range v
  omega

/-- An encoded word of za_zzi_4xi as the sum of its fields (R54). -/
theorem encode_four_toNat (v : VSel) (offs n m index : Nat) :
    (encode (.fmlalZaZzi4xi v offs n m index)).toNat =
      0xC1909000 + m % 16 * 2 ^ 16 + (v.number - 8) * 2 ^ 13 + index / 2 % 4 * 2 ^ 10 + n / 4 % 8 * 2 ^ 7 +
        index % 2 * 2 ^ 2 + offs / 2 % 4 := by
  simp only [encode, toNat_append_eq_add, code_toNat, BitVec.toNat_ofNat]
  have := number_range v
  omega

/-- The slice in the middle of a sum of three fields. -/
theorem slice_of_sum (x high mid low lo len : Nat) (hx : x = high * 2 ^ (lo + len) + mid * 2 ^ lo + low)
    (hm : mid < 2 ^ len) (hl : low < 2 ^ lo) : x / 2 ^ lo % 2 ^ len = mid := by
  have h1 : x = low + 2 ^ lo * (high * 2 ^ len + mid) := by
    rw [hx, Nat.pow_add]
    ring
  rw [h1, Nat.add_mul_div_left _ _ (Nat.two_pow_pos lo), Nat.div_eq_of_lt hl, Nat.zero_add, Nat.mul_comm high,
    Nat.mul_add_mod, Nat.mod_eq_of_lt hm]

/-- The well-formedness check of each form as facts of arithmetic (R69). -/
theorem wellFormed_one_iff (v : VSel) (offs n m index : Nat) :
    (Instr.fmlalZaZzi1 v offs n m index).WellFormed ↔
      offs % 2 = 0 ∧ offs ≤ 14 ∧ n < 32 ∧ m < 16 ∧ index < 8 := by
  simp [Instr.WellFormed, Instr.wellFormed, offsOneOk, znOk, zmOk, indexOk, Nat.mod_one]
  tauto

theorem wellFormed_two_iff (v : VSel) (offs n m index : Nat) :
    (Instr.fmlalZaZzi2xi v offs n m index).WellFormed ↔
      offs % 2 = 0 ∧ offs ≤ 6 ∧ n % 2 = 0 ∧ n < 32 ∧ m < 16 ∧ index < 8 := by
  simp [Instr.WellFormed, Instr.wellFormed, offsGroupOk, znOk, zmOk, indexOk]
  tauto

theorem wellFormed_four_iff (v : VSel) (offs n m index : Nat) :
    (Instr.fmlalZaZzi4xi v offs n m index).WellFormed ↔
      offs % 2 = 0 ∧ offs ≤ 6 ∧ n % 4 = 0 ∧ n < 32 ∧ m < 16 ∧ index < 8 := by
  simp [Instr.WellFormed, Instr.wellFormed, offsGroupOk, znOk, zmOk, indexOk]
  tauto

/-- The select register a word's `Rv` names (R56). -/
theorem decodeVSel_number (w : Word) : (decodeVSel w).number = 8 + w.toNat / 2 ^ 13 % 4 := by
  unfold decodeVSel
  rw [field_eq]
  have h : w.toNat / 2 ^ 13 % 2 ^ 2 < 4 := Nat.mod_lt _ (by decide)
  rw [show (4 : Nat) = 2 ^ 2 from rfl]
  generalize w.toNat / 2 ^ 13 % 2 ^ 2 = k at *
  rcases k with _ | _ | _ | _ | k <;> first | rfl | omega

theorem number_inj (u v : VSel) : u.number = v.number ↔ u = v := by cases u <;> cases v <;> decide

end Sys2Proof
end

