-- ==== Sys2Proof/Laws/Select.lean ====
section
/-!
SUPPORT. Laws of the ZA vector selection (40_fmlal_za_indexed.md R81, R87, R88): the selected vectors lie in the array,
start at an even number, and are pairwise distinct. `n` is any legal vector length.
-/

namespace Sys2Proof.Machine

theorem form_nreg_cases (f : Form) : f.nreg = 1 ∨ f.nreg = 2 ∨ f.nreg = 4 := by cases f <;> simp [Form.nreg]

theorem form_nreg_pos (f : Form) : 0 < f.nreg := by cases f <;> simp [Form.nreg]

/-- The `nreg` blocks of `vstride` vectors make up the array. -/
theorem nreg_mul_vstride (n : VectorLength) (f : Form) : f.nreg * vstride n.bits f.nreg = n.bits / 8 := by
  have h := n.legal
  rcases form_nreg_cases f with h1 | h1 | h1 <;> rw [h1] <;> simp only [vstride, vectors] <;> omega

theorem vstride_ge_four (n : VectorLength) (f : Form) : 4 ≤ vstride n.bits f.nreg := by
  have h := n.legal
  rcases form_nreg_cases f with h1 | h1 | h1 <;> rw [h1] <;> simp only [vstride, vectors] <;> omega

theorem vstride_even (n : VectorLength) (f : Form) : vstride n.bits f.nreg % 2 = 0 := by
  have h := n.legal
  rcases form_nreg_cases f with h1 | h1 | h1 <;> rw [h1] <;> simp only [vstride, vectors] <;> omega

theorem vecFirst_even (n nreg : Nat) (wv : Word) (offs : Nat) : vecFirst n nreg wv offs % 2 = 0 := by
  simp only [vecFirst]
  omega

theorem vecReduced_lt (n : VectorLength) (f : Form) (wv : Word) (offs : Nat) :
    vecReduced n.bits f.nreg wv offs < vstride n.bits f.nreg :=
  Nat.mod_lt _ (by have := vstride_ge_four n f; omega)

/-- The first pair lies inside the first block: `vec0 + 1 <= vstride - 1` (R87). -/
theorem vecFirst_add_two_le (n : VectorLength) (f : Form) (wv : Word) (offs : Nat) :
    vecFirst n.bits f.nreg wv offs + 2 ≤ vstride n.bits f.nreg := by
  have h1 := vecReduced_lt n f wv offs
  have h2 := vstride_even n f
  have h3 := vecFirst_even n.bits f.nreg wv offs
  simp only [vecFirst] at *
  omega

/-- Vector `i` of double-vector `r` lies in block `r` of the array. -/
theorem vecIndex_in_block (n : VectorLength) (f : Form) (wv : Word) (offs r i : Nat) (hi : i < 2) :
    r * vstride n.bits f.nreg ≤ vecIndex n.bits f.nreg wv offs r i ∧
      vecIndex n.bits f.nreg wv offs r i < (r + 1) * vstride n.bits f.nreg := by
  have h := vecFirst_add_two_le n f wv offs
  simp only [vecIndex, Nat.add_mul]
  omega

theorem block_le_array (n : VectorLength) (f : Form) (r : Nat) (hr : r < f.nreg) :
    (r + 1) * vstride n.bits f.nreg ≤ n.bits / 8 := by
  rw [← nreg_mul_vstride n f]
  exact Nat.mul_le_mul_right _ hr

/-- Two selected vectors with the same number are the same one. -/
theorem vecIndex_inj (n : VectorLength) (f : Form) (wv : Word) (offs r i r' i' : Nat) (hi : i < 2) (hi' : i' < 2)
    (h : vecIndex n.bits f.nreg wv offs r i = vecIndex n.bits f.nreg wv offs r' i') : r = r' ∧ i = i' := by
  have h1 := vecIndex_in_block n f wv offs r i hi
  have h2 := vecIndex_in_block n f wv offs r' i' hi'
  have hr : r = r' := by
    rcases Nat.lt_trichotomy r r' with hlt | heq | hlt
    · have := Nat.mul_le_mul_right (vstride n.bits f.nreg) (show r + 1 ≤ r' from hlt)
      omega
    · exact heq
    · have := Nat.mul_le_mul_right (vstride n.bits f.nreg) (show r' + 1 ≤ r from hlt)
      omega
  subst hr
  simp only [vecIndex] at h
  omega

/-! ## A sequence of writes at distinct places -/

theorem zaRead_foldl_other {n : Nat} {ι : Type} (idx : ι → Nat) (g : ι → BitVec n → BitVec n) (l : List ι)
    (za : ZaArray n) (k : Nat) (h : ∀ p ∈ l, idx p ≠ k) :
    zaRead (l.foldl (fun za p => zaWrite za (idx p) (g p (zaRead za (idx p)))) za) k = zaRead za k := by
  induction l generalizing za with
  | nil => rfl
  | cons p l ih =>
    rw [List.foldl_cons, ih _ fun q hq => h q (List.mem_cons_of_mem _ hq),
      zaRead_zaWrite_ne _ _ _ _ (h p (List.mem_cons_self ..))]

/-- Writes at distinct places inside the array: each place gets its own value, from what it held before them all. -/
theorem zaRead_foldl_mem {n : Nat} {ι : Type} (idx : ι → Nat) (g : ι → BitVec n → BitVec n) (l : List ι)
    (za : ZaArray n) (hd : (l.map idx).Nodup) (p : ι) (hp : p ∈ l) (hlt : idx p < n / 8) :
    zaRead (l.foldl (fun za p => zaWrite za (idx p) (g p (zaRead za (idx p)))) za) (idx p) =
      g p (zaRead za (idx p)) := by
  induction l generalizing za with
  | nil => simp at hp
  | cons q l ih =>
    rw [List.map_cons, List.nodup_cons] at hd
    rw [List.foldl_cons]
    rcases List.mem_cons.1 hp with rfl | hp'
    · rw [zaRead_foldl_other, zaRead_zaWrite_same _ _ _ hlt]
      intro q hq heq
      exact hd.1 (List.mem_map.2 ⟨q, hq, heq⟩)
    · have hne : idx q ≠ idx p := fun heq => hd.1 (List.mem_map.2 ⟨p, hp', heq.symm⟩)
      rw [ih _ hd.2 hp', zaRead_zaWrite_ne _ _ _ _ hne]

end Sys2Proof.Machine
end

