-- ==== Sys2Proof/Laws/State.lean ====
section
/-!
SUPPORT. What each field of the state is after the one update of the model: the next state of a completed FMLAL.
-/

namespace Sys2Proof.Machine

variable (nreg : Nat) (v : VSel) (offs n m index : Nat) (s : State)

@[simp] theorem fmlalNext_cfg : (fmlalNext nreg v offs n m index s).cfg = s.cfg := rfl
@[simp] theorem fmlalNext_base : (fmlalNext nreg v offs n m index s).base = s.base := rfl
@[simp] theorem fmlalNext_prog : (fmlalNext nreg v offs n m index s).prog = s.prog := rfl
@[simp] theorem fmlalNext_z : (fmlalNext nreg v offs n m index s).z = s.z := rfl
@[simp] theorem fmlalNext_za : (fmlalNext nreg v offs n m index s).za = fmlalZa nreg v offs n m index s := rfl
@[simp] theorem fmlalNext_x8 : (fmlalNext nreg v offs n m index s).x8 = s.x8 := rfl
@[simp] theorem fmlalNext_x9 : (fmlalNext nreg v offs n m index s).x9 = s.x9 := rfl
@[simp] theorem fmlalNext_x10 : (fmlalNext nreg v offs n m index s).x10 = s.x10 := rfl
@[simp] theorem fmlalNext_x11 : (fmlalNext nreg v offs n m index s).x11 = s.x11 := rfl
@[simp] theorem fmlalNext_pc : (fmlalNext nreg v offs n m index s).pc = s.pc + 4#64 := rfl
@[simp] theorem fmlalNext_fpcr : (fmlalNext nreg v offs n m index s).fpcr = s.fpcr := rfl
@[simp] theorem fmlalNext_pstate : (fmlalNext nreg v offs n m index s).pstate = s.pstate := rfl
@[simp] theorem fmlalNext_xReg (u : VSel) : (fmlalNext nreg v offs n m index s).xReg u = s.xReg u := by
  cases u <;> rfl
@[simp] theorem fmlalNext_wReg (u : VSel) : (fmlalNext nreg v offs n m index s).wReg u = s.wReg u := by
  simp [State.wReg]

end Sys2Proof.Machine
end

