-- ==== Sys2Proof/Laws/Fmlal.lean ====
section
/-!
SUPPORT. What the operation of FMLAL does, once for its three encodings: the ZA array it leaves, element by element, and
the outcome of an instruction by the conditions of 60_exceptions.md R135.
-/

namespace Sys2Proof.Machine

/-- The pairs `(r, i)` in the order of the source's loops. -/
def loopPairs (nreg : Nat) : List (Nat × Nat) :=
  (List.range nreg).flatMap fun r => (List.range 2).map fun i => (r, i)

theorem mem_loopPairs (nreg : Nat) (p : Nat × Nat) : p ∈ loopPairs nreg ↔ p.1 < nreg ∧ p.2 < 2 := by
  obtain ⟨r, i⟩ := p
  simp [loopPairs]

/-- The two loops as one sequence of writes. -/
theorem fmlalZa_eq_foldl (nreg : Nat) (v : VSel) (offs n m index : Nat) (s : State) :
    fmlalZa nreg v offs n m index s = (loopPairs nreg).foldl (fun za p =>
      zaWrite za (vecIndex s.currentVL nreg (s.wReg v) offs p.1 p.2)
        (fmlalVector (fun a x y => fpMulAddHZa s.cfg a x y s.fpcr) p.2 index (s.zReg (n + p.1)) (s.zReg m)
          (zaRead za (vecIndex s.currentVL nreg (s.wReg v) offs p.1 p.2)))) s.za := by
  simp only [loopPairs, fmlalZa, fmlalVectorAt, List.foldl_flatMap, List.foldl_map]

theorem loopPairs_vecIndex_nodup (len : VectorLength) (f : Form) (wv : Word) (offs : Nat) :
    ((loopPairs f.nreg).map fun p => vecIndex len.bits f.nreg wv offs p.1 p.2).Nodup := by
  refine (List.nodup_map_iff_inj_on ?_).2 ?_
  · cases f <;> decide
  · rintro ⟨r, i⟩ hp ⟨r', i'⟩ hq h
    rw [mem_loopPairs] at hp hq
    obtain ⟨rfl, rfl⟩ := vecIndex_inj len f wv offs r i r' i' hp.2 hq.2 h
    rfl

/-- A selected ZA vector after the operation: its new value, from the state before the instruction (R82, R87). -/
theorem zaRead_fmlalZa_selected (f : Form) (v : VSel) (offs n m index : Nat) (s : State) (r i : Nat)
    (hr : r < f.nreg) (hi : i < 2) :
    zaRead (fmlalZa f.nreg v offs n m index s) (vecIndex s.currentVL f.nreg (s.wReg v) offs r i) =
      fmlalVector (fun a x y => fpMulAddHZa s.cfg a x y s.fpcr) i index (s.zReg (n + r)) (s.zReg m)
        (zaRead s.za (vecIndex s.currentVL f.nreg (s.wReg v) offs r i)) := by
  rw [fmlalZa_eq_foldl]
  refine zaRead_foldl_mem (fun p : Nat × Nat => vecIndex s.currentVL f.nreg (s.wReg v) offs p.1 p.2)
    (fun p old => fmlalVector (fun a x y => fpMulAddHZa s.cfg a x y s.fpcr) p.2 index (s.zReg (n + p.1)) (s.zReg m) old)
    _ _ (loopPairs_vecIndex_nodup s.cfg.svl f _ offs) (r, i) ((mem_loopPairs ..).2 ⟨hr, hi⟩) ?_
  have h1 := vecIndex_in_block s.cfg.svl f (s.wReg v) offs r i hi
  have h2 := block_le_array s.cfg.svl f r hr
  exact Nat.lt_of_lt_of_le h1.2 h2

/-- A ZA vector that is not selected keeps its value (R83 to R85 "Writes"). -/
theorem zaRead_fmlalZa_other (nreg : Nat) (v : VSel) (offs n m index : Nat) (s : State) (k : Nat)
    (h : ∀ r < nreg, ∀ i < 2, vecIndex s.currentVL nreg (s.wReg v) offs r i ≠ k) :
    zaRead (fmlalZa nreg v offs n m index s) k = zaRead s.za k := by
  rw [fmlalZa_eq_foldl]
  refine zaRead_foldl_other (fun p : Nat × Nat => vecIndex s.currentVL nreg (s.wReg v) offs p.1 p.2)
    (fun p old => fmlalVector (fun a x y => fpMulAddHZa s.cfg a x y s.fpcr) p.2 index (s.zReg (n + p.1)) (s.zReg m) old)
    _ _ k ?_
  intro p hp
  rw [mem_loopPairs] at hp
  exact h p.1 hp.1 p.2 hp.2

/-- One element of a computed vector (R82). -/
theorem elem_fmlalVector {n : Nat} (fp : Single → Half → Half → Single) (i index : Nat) (op1 op2 op3 : BitVec n)
    (e : Nat) (he : e < n / 32) :
    elem (fmlalVector fp i index op1 op2 op3) e 32 =
      fp (elem op3 e 32) (elem op1 (2 * e + i) 16) (elem op2 (segmentElement e index) 16) :=
  elem_buildVector n _ e he

/-! ## The outcome of an instruction -/

/-- No fault is raised exactly when the four premises of 70_reset_and_hazards.md R151 hold. -/
theorem executionFault_eq_none (w : Word) (s : State) :
    executionFault w s = none ↔
      s.cfg.featSme2 = true ∧ s.accessTrapped = false ∧ s.pstate.sm = true ∧ s.pstate.za = true := by
  unfold executionFault featureFault streamingAndZaFault
  cases s.cfg.featSme2 <;> cases s.accessTrapped <;> cases s.pstate.sm <;> cases s.pstate.za <;> simp

/-- The arms of `exec` all come to the shared operation. -/
theorem exec_eq_fmlal (i : Instr) (s : State) : exec i s = fmlal i s := by
  cases i <;> rfl

/-- Everything `fmlal` can do when it completes: no other state follows. -/
theorem fmlal_next {i : Instr} {s t : State} (h : fmlal i s = .next t) :
    i.WellFormed ∧ executionFault (encode i) s = none ∧ altFpRefused s.cfg s.fpcr = false ∧
      t = fmlalNext i.nreg i.v i.offs i.n i.m i.index s := by
  unfold fmlal at h
  split at h
  · rename_i hwf
    split at h
    · simp [raise] at h
    · rename_i hf
      split at h
      · simp at h
      · rename_i ha
        injection h with h
        exact ⟨hwf, hf, by simpa using ha, h.symm⟩
  · simp at h

/-- When `fmlal` completes, from conditions on the state and the operands alone. -/
theorem fmlal_completes {i : Instr} {s : State} (hwf : i.WellFormed) (hf : executionFault (encode i) s = none)
    (ha : altFpRefused s.cfg s.fpcr = false) :
    fmlal i s = .next (fmlalNext i.nreg i.v i.offs i.n i.m i.index s) := by
  simp [fmlal, hwf, hf, ha]

/-- A fault of `fmlal` is the fault of the two tests, with the instruction's word. -/
theorem fmlal_fault {i : Instr} {s : State} {f : Fault} (h : fmlal i s = .fault f) :
    i.WellFormed ∧ executionFault (encode i) s = some f := by
  unfold fmlal at h
  split at h
  · rename_i hwf
    split at h
    · rename_i g hg
      injection h with h
      exact ⟨hwf, h ▸ hg⟩
    · split at h <;> simp at h
  · simp at h

end Sys2Proof.Machine
end

