-- ==== Sys2Proof/Laws/PerInstr.lean ====
section
/-!
SUPPORT. The per-instruction family `EncodeFixedBits`: the encoded word of an instruction has the fixed bits of its own
format (30_encoding.md R51 to R54), whatever its operands are.
-/

namespace Sys2Proof.Laws.EncodeFixedBits

def Statement (i : Instr) : Prop := hasFormat i.form (encode i) = true

theorem fmlalZaZzi1 (v : VSel) (offs n m index : Nat) : Statement (.fmlalZaZzi1 v offs n m index) := by
  have hv := number_range v
  have h := encode_one_toNat v offs n m index
  refine (hasFormat_one_iff _).2 ?_
  omega

theorem fmlalZaZzi2xi (v : VSel) (offs n m index : Nat) : Statement (.fmlalZaZzi2xi v offs n m index) := by
  have hv := number_range v
  have h := encode_two_toNat v offs n m index
  refine (hasFormat_two_iff _).2 ⟨?_, ?_, ?_, ?_⟩
  · omega
  · exact slice_of_sum _ (0xC190 + m % 16) 0 (0x1000 + (v.number - 8) * 2 ^ 13 + index / 2 % 4 * 2 ^ 10 +
      n / 2 % 16 * 2 ^ 6 + index % 2 * 2 ^ 2 + offs / 2 % 4) 15 1 (by omega) (by decide) (by omega)
  · omega
  · omega

theorem fmlalZaZzi4xi (v : VSel) (offs n m index : Nat) : Statement (.fmlalZaZzi4xi v offs n m index) := by
  have hv := number_range v
  have h := encode_four_toNat v offs n m index
  refine (hasFormat_four_iff _).2 ⟨?_, ?_, ?_, ?_⟩ <;> omega

end Sys2Proof.Laws.EncodeFixedBits
end

