-- ==== Sys2Proof/Laws/Step.lean ====
section
/-!
SUPPORT. What a fetch and a step can do, once: a fetched word is a word of the program at `pc`, and a completed step is
one decoded instruction's `fmlalNext`.
-/

namespace Sys2Proof.Machine

/-- A word is fetched exactly when `pc` is at a word of an aligned program (20_memory.md R42). -/
theorem fetch_eq_word_iff (s : State) (w : Word) :
    fetch s = .word w ↔
      s.base.toNat % 4 = 0 ∧ ∃ k, s.pc.toNat = s.base.toNat + 4 * k ∧ s.prog[k]? = some w := by
  have key : s.fetchIndex.bind (s.prog[·]?) = some w ↔
      s.base.toNat % 4 = 0 ∧ ∃ k, s.pc.toNat = s.base.toNat + 4 * k ∧ s.prog[k]? = some w := by
    unfold State.fetchIndex State.baseAligned
    constructor
    · intro h
      split at h
      · rename_i hc
        simp only [Bool.and_eq_true, beq_iff_eq, decide_eq_true_eq] at hc
        exact ⟨hc.1.1, (s.pc.toNat - s.base.toNat) / 4, by omega, h⟩
      · simp at h
    · rintro ⟨hb, k, hk, hw⟩
      rw [if_pos]
      · simpa [show (s.pc.toNat - s.base.toNat) / 4 = k by omega] using hw
      · simp only [Bool.and_eq_true, beq_iff_eq, decide_eq_true_eq]
        omega
  rw [← key]
  unfold fetch
  cases h : s.fetchIndex.bind (s.prog[·]?) with
  | some w' => simp
  | none =>
    simp only [reduceCtorEq, iff_false]
    split <;> simp

/-- Where no word is fetched, the end of the program ends the run and every other place is refused (R42). -/
theorem fetch_of_no_word (s : State) (h : ∀ w, fetch s ≠ .word w) :
    fetch s = if s.atEnd then .ended else .outside := by
  unfold fetch at *
  split
  · rename_i w hw
    simp [hw] at h
  · rfl

/-- A word decodes exactly when it is in scope (30_encoding.md R63, R64). -/
theorem decode_cases (w : Word) :
    (inScope w = true ∧ ∃ i, decode w = .ok i) ∨ (inScope w = false ∧ decode w = .error (.notInScope w)) := by
  unfold decode inScope
  cases hasFormat .one w <;> cases hasFormat .two w <;> cases hasFormat .four w <;> simp

/-- Everything a completed step is: the word at `pc` decoded to one instruction, which ran. -/
theorem step_next {s t : State} (h : step s = .next t) :
    ∃ w i, fetch s = .word w ∧ decode w = .ok i ∧ i.WellFormed ∧ executionFault (encode i) s = none ∧
      altFpRefused s.cfg s.fpcr = false ∧ t = fmlalNext i.nreg i.v i.offs i.n i.m i.index s := by
  unfold step at h
  split at h
  · simp at h
  · simp at h
  · rename_i w hw
    split at h
    · rename_i i hi
      rw [exec_eq_fmlal] at h
      exact ⟨w, i, hw, hi, fmlal_next h⟩
    · simp at h

end Sys2Proof.Machine
end

