-- ==== Sys2Proof/Tests/Slice0.lean ====
section
/-!
SUPPORT. Tests of the model against the spec's own vectors (95_test_vectors.md) and words written out from the diagrams
of 30_encoding.md, and a witness for the hypotheses of each statement.
-/

namespace Sys2Proof.Tests

open Sys2Proof.Machine

/-! ## Well-formedness: one ill-formed term for each check, refused (30_encoding.md R69) -/

theorem test_wellFormed_boundaries :
    (Instr.fmlalZaZzi1 .w11 14 31 15 7).wellFormed = true ∧ (Instr.fmlalZaZzi2xi .w11 6 30 15 7).wellFormed = true ∧
    (Instr.fmlalZaZzi4xi .w11 6 28 15 7).wellFormed = true := by decide
theorem test_wellFormed_refuses_odd_offset :
    (Instr.fmlalZaZzi1 .w8 1 0 0 0).wellFormed = false ∧ (Instr.fmlalZaZzi2xi .w8 1 0 0 0).wellFormed = false ∧
    (Instr.fmlalZaZzi4xi .w8 3 0 0 0).wellFormed = false := by decide
theorem test_wellFormed_refuses_large_offset :
    (Instr.fmlalZaZzi1 .w8 16 0 0 0).wellFormed = false ∧ (Instr.fmlalZaZzi2xi .w8 8 0 0 0).wellFormed = false ∧
    (Instr.fmlalZaZzi4xi .w8 8 0 0 0).wellFormed = false := by decide
theorem test_wellFormed_refuses_zn :
    (Instr.fmlalZaZzi1 .w8 0 32 0 0).wellFormed = false ∧ (Instr.fmlalZaZzi2xi .w8 0 3 0 0).wellFormed = false ∧
    (Instr.fmlalZaZzi2xi .w8 0 32 0 0).wellFormed = false ∧ (Instr.fmlalZaZzi4xi .w8 0 2 0 0).wellFormed = false ∧
    (Instr.fmlalZaZzi4xi .w8 0 32 0 0).wellFormed = false := by decide
theorem test_wellFormed_refuses_zm :
    (Instr.fmlalZaZzi1 .w8 0 0 16 0).wellFormed = false ∧ (Instr.fmlalZaZzi2xi .w8 0 0 16 0).wellFormed = false ∧
    (Instr.fmlalZaZzi4xi .w8 0 0 16 0).wellFormed = false := by decide
theorem test_wellFormed_refuses_index :
    (Instr.fmlalZaZzi1 .w8 0 0 0 8).wellFormed = false ∧ (Instr.fmlalZaZzi2xi .w8 0 0 0 8).wellFormed = false ∧
    (Instr.fmlalZaZzi4xi .w8 0 0 0 8).wellFormed = false := by decide

/-! ## Decoding: words written out bit by bit from the diagrams (R52, R53, R54), and words of 95_test_vectors.md 2.1, 2.2 -/

/-- `1 10 0000 1 10 00 Zm i3h Rv 1 i3l Zn 0 0 off3` with Zm = 5, i3h = 1, Rv = 1, i3l = 0, Zn = 10, off3 = 3. -/
theorem test_decode_one_bit_by_bit :
    decode 0b1_10_0000_1_10_00_0101_1_01_1_00_01010_0_0_011#32 = .ok (.fmlalZaZzi1 .w9 6 10 5 4) := by decide
/-- `1 10 0000 1 10 01 Zm 0 Rv 1 i3h Zn 0 0 0 i3l off2` with Zm = 4, Rv = 1, i3h = 2, Zn = 1, i3l = 1, off2 = 1. -/
theorem test_decode_two_bit_by_bit :
    decode 0b1_10_0000_1_10_01_0100_0_01_1_10_0001_0_0_0_1_01#32 = .ok (.fmlalZaZzi2xi .w9 2 2 4 5) := by decide
/-- `1 10 0000 1 10 01 Zm 1 Rv 1 i3h Zn 00 0 0 i3l off2` with Zm = 8, Rv = 2, i3h = 2, Zn = 2, i3l = 1, off2 = 0. -/
theorem test_decode_four_bit_by_bit :
    decode 0b1_10_0000_1_10_01_1000_1_10_1_10_010_00_0_0_1_00#32 = .ok (.fmlalZaZzi4xi .w10 0 8 8 5) := by decide
/-- 95_test_vectors.md section 2.2. -/
theorem test_decode_refuses_other_words :
    [0xC1801008, 0xC1801010, 0xC1801018, 0xC1800000, 0xC1901020, 0xC1909020, 0xC1909040, 0xC1909060, 0xC1A01000,
      0xC1001000, 0x00000000, 0xD503201F].all (fun w : Word => inScope w == false) = true := by decide
theorem test_encode_words :
    encode (.fmlalZaZzi1 .w11 14 31 15 7) = 0xC18FFFE7#32 ∧ encode (.fmlalZaZzi1 .w10 12 17 0 3) = 0xC1805E26#32 ∧
    encode (.fmlalZaZzi2xi .w8 4 6 7 6) = 0xC1971CC2#32 ∧ encode (.fmlalZaZzi4xi .w9 4 16 3 2) = 0xC193B602#32 := by
  decide
theorem test_decodeTableWord :
    decodeTableWord 32 0xC1925204 = some (.fmlalZaZzi2xi .w10 0 16 2 1) ∧ decodeTableWord 32 0xC1801008 = none := by
  decide
/-- 95_test_vectors.md section 2.1, as `AsmLine.text` spells it: two spaces after the mnemonic (R71). -/
theorem test_text : (disassemble (.fmlalZaZzi1 .w9 6 10 5 4)).text = "FMLAL  ZA.S[W9, 6:7], Z10.H, Z5.H[4]" := by
  decide +kernel

/-! ## The select arithmetic (95_test_vectors.md section 2.3) -/

theorem test_vecFirst :
    vecFirst 128 1 0xFFFFFFFF#32 2 = 0 ∧ vecFirst 128 1 0xF#32 14 = 12 ∧ vecFirst 128 2 7#32 6 = 4 ∧
    vecFirst 128 4 0xFFFFFFFE#32 6 = 0 ∧ vecFirst 512 4 0x12345678#32 6 = 14 ∧ vecFirst 2048 2 0xFF#32 6 = 4 := by
  decide

/-! ## The reference numerics (95_test_vectors.md section 2.4) -/

theorem test_fp_ties_and_modes :
    fpMulAddReference 0x3F800001#32 0x0001#16 0x3C00#16 0#32 = 0x3F800002#32 ∧
    fpMulAddReference 0xBF800000#32 0x8001#16 0x3C00#16 0x00800000#32 = 0xBF800001#32 ∧
    fpMulAddReference 0x7F7FFFFF#32 0x7BFF#16 0x7BFF#16 0x00400000#32 = 0x7F800000#32 ∧
    fpMulAddReference 0x7F7FFFFF#32 0x8001#16 0x0001#16 0x00C00000#32 = 0x7F7FFFFE#32 := by decide +kernel
theorem test_fp_flush_and_zero :
    fpMulAddReference 0x00000000#32 0x0001#16 0x3C00#16 0x01000000#32 = 0x33800000#32 ∧
    fpMulAddReference 0x80000000#32 0x8001#16 0x3C00#16 0x00080000#32 = 0x80000000#32 ∧
    fpMulAddReference 0x807FFFFF#32 0x0000#16 0x3C00#16 0x01000000#32 = 0x00000000#32 ∧
    fpMulAddReference 0x3F800000#32 0xBC00#16 0x3C00#16 0x00800000#32 = 0x80000000#32 ∧
    fpMulAddReference 0x3F800000#32 0x7C00#16 0x0001#16 0x00080000#32 = 0x7FC00000#32 ∧
    fpMulAddReference 0x00000000#32 0x7C00#16 0x3C00#16 0x04000000#32 = 0x7F800000#32 := by decide +kernel

/-! ## Whole instructions, one step each (95_test_vectors.md section 2.5) -/

/-- A vector from its half-precision elements, element 0 first. -/
def halves (n : Nat) (l : List Nat) : BitVec n := BitVec.ofNat n (l.foldr (fun h acc => h + acc * 2 ^ 16) 0)

/-- An enabled machine with one word at its fetch, given `Z` registers and one value in every ZA element. -/
def sample (len : VectorLength) (w : Word) (w8 w9 : DWord) (zs : List (Nat × List Nat)) (fill : Single) : State where
  cfg := ⟨len, true, false, .untrapped, .reference⟩
  base := 0x1000#64
  prog := [w]
  z := zs.foldl (fun z p => z.setIfInBounds p.1 (halves _ p.2)) (Vector.replicate _ 0#_)
  za := Vector.replicate _ (buildVector _ fun _ => fill)
  x8 := w8
  x9 := w9
  x10 := 0#64
  x11 := 0#64
  pc := 0x1000#64
  fpcr := 0#32
  pstate := ⟨true, true⟩

def len128 : VectorLength := ⟨128, by decide⟩
def len256 : VectorLength := ⟨256, by decide⟩

/-- The single-precision elements of ZA vector `k`, and `pc`, after one step; nothing where it does not complete. -/
def rowAfterStep (s : State) (k : Nat) : Option (List Nat × DWord) :=
  match step s with
  | .next t => some ((List.range (elements t.currentVL)).map fun e => (elem (zaRead t.za k) e 32).toNat, t.pc)
  | .fault _ => none
  | .refused _ => none

def oneToEight : List Nat := [0x3C00, 0x4000, 0x4200, 0x4400, 0x4500, 0x4600, 0x4700, 0x4800]

/-- V1, and a vector it does not select. -/
theorem test_step_one :
    let s := sample len128 0xC1811800#32 0#64 0#64 [(0, oneToEight), (1, [0, 0, 0x4000])] 0#32
    rowAfterStep s 0 = some ([0x40000000, 0x40C00000, 0x41200000, 0x41600000], 0x1004#64) ∧
    rowAfterStep s 1 = some ([0x40800000, 0x41000000, 0x41400000, 0x41800000], 0x1004#64) ∧
    rowAfterStep s 2 = some ([0, 0, 0, 0], 0x1004#64) := by decide +kernel
/-- V2's word and sources at SVL = 256: elements 0 to 3 take `Z1.H[3]`, 4 to 7 take `Z1.H[11]`; every addend is 1.0. -/
theorem test_step_one_two_segments :
    rowAfterStep (sample len256 0xC1811C03#32 5#64 0#64
      [(0, oneToEight ++ [0x4880, 0x4900, 0x4980, 0x4A00, 0x4A80, 0x4B00, 0x4B80, 0x4C00]),
        (1, [0, 0, 0, 0x4000, 0, 0, 0, 0, 0, 0, 0, 0x4200])] 0x3F800000#32) 10 =
    some ([0x40400000, 0x40E00000, 0x41300000, 0x41700000, 0x41E00000, 0x42080000, 0x42200000, 0x42380000],
      0x1004#64) := by decide +kernel
/-- V3. -/
theorem test_step_two :
    let s := sample len128 0xC1943845#32 0#64 2#64
      [(2, [0x3C00, 0xBC00, 0x4000, 0xC000, 0x4200, 0xC200, 0x4400, 0xC400]),
        (3, [0x3800, 0x3400, 0x3000, 0x4800, 0x4C00, 0x5000, 0x5400, 0x5800]), (4, [0, 0, 0, 0, 0, 0x4400])] 0x41200000#32
    rowAfterStep s 5 = some ([0x40C00000, 0x40000000, 0xC0000000, 0xC0C00000], 0x1004#64) ∧
    rowAfterStep s 12 = some ([0x41400000, 0x41280000, 0x42940000, 0x43850000], 0x1004#64) := by decide +kernel
/-- V4, whose `Zm` lies inside the source group. -/
theorem test_step_four :
    let s := sample len128 0xC1959480#32 0#64 0#64
      [(4, oneToEight), (5, [0x4000, 0x4400, 0x4600, 0x4800, 0x4900, 0x4A00, 0x4B00, 0x4C00]),
        (7, [0x4400, 0x4800, 0x4A00, 0x4C00, 0x4D00, 0x4E00, 0x4F00, 0x5000])] 0#32
    rowAfterStep s 1 = some ([0x41400000, 0x41C00000, 0x42100000, 0x42400000], 0x1004#64) ∧
    rowAfterStep s 13 = some ([0x42400000, 0x42C00000, 0x43100000, 0x43400000], 0x1004#64) := by decide +kernel

/-! ## Faults and refusals (95_test_vectors.md section 2.6) -/

/-- A machine at word `w` with the table's four conditions. -/
def faultSample (w : Word) (feat : Bool) (access : AccessControl) (sm za : Bool) : State :=
  { sample len128 w 0#64 0#64 [] 0#32 with
    cfg := ⟨len128, feat, false, access, .reference⟩, pstate := ⟨sm, za⟩ }

/-- What a step answers, less its next state. -/
def stopOf (s : State) : Option (Fault ⊕ Refusal) :=
  match step s with
  | .next _ => none
  | .fault f => some (.inl f)
  | .refused q => some (.inr q)

theorem test_fault_table :
    stopOf (faultSample 0xC1801000#32 false .trapped false false) = some (.inl (.undefined 0xC1801000#32 0x1000#64)) ∧
    stopOf (faultSample 0xC1801000#32 true .trapped false false) =
      some (.inl (.smeAccessTrap .accessTrapped 0xC1801000#32 0x1000#64)) ∧
    stopOf (faultSample 0xC1801000#32 true .untrapped false false) =
      some (.inl (.smeAccessTrap .notStreaming 0xC1801000#32 0x1000#64)) ∧
    stopOf (faultSample 0xC1801000#32 true .untrapped true false) =
      some (.inl (.smeAccessTrap .inactiveZa 0xC1801000#32 0x1000#64)) ∧
    stopOf (faultSample 0xC1801000#32 true .untrapped true true) = none ∧
    stopOf (faultSample 0xC1801008#32 false .trapped false false) = some (.inr (.notInScope 0xC1801008#32)) := by
  decide +kernel

/-! # Witnesses

For each statement of Certificates/Slice0/Obligations.lean that has hypotheses, a concrete state and operands that meet
them all together, and for a statement of several clauses one for each clause, at boundary values. -/

/-- An enabled machine at the one-vector word with the largest fields, `W11` at its largest value, `SVL` = 128. -/
def atLargest : State :=
  { sample len128 0xC18FFFE7#32 0#64 0#64 [] 0#32 with x11 := 0xFFFFFFFFFFFFFFFF#64 }

/-- The same machine with `pc` moved. -/
def atPc (pc : DWord) : State := { atLargest with pc := pc }

/-- Whether a step completes. -/
def completes (s : State) : Bool := stopOf s == none

theorem completes_iff (s : State) : completes s = true ↔ ∃ t, step s = .next t := by
  unfold completes stopOf
  cases step s <;> simp

/-! ## Decoding and encoding -/

theorem witness_FormatsFollowDiagrams :
    hasFormat .one 0xC18FFFE7#32 = true ∧ hasFormat .two 0xC19F7FC7#32 = true ∧ hasFormat .four 0xC19FFF87#32 = true := by
  decide
/-- Also for `OffsetIsTwiceItsField`: the largest offsets, and the smallest. -/
theorem witness_OperandNumbersAreUnsignedFields :
    decode 0xC18FFFE7#32 = .ok (.fmlalZaZzi1 .w11 14 31 15 7) ∧
    decode 0xC19F7FC7#32 = .ok (.fmlalZaZzi2xi .w11 6 30 15 7) ∧
    decode 0xC1909000#32 = .ok (.fmlalZaZzi4xi .w8 0 0 0 0) := by decide
theorem witness_FormatsAreDisjoint :
    (hasFormat .one 0xC1801000#32 = true ∧ hasFormat .two 0xC1901000#32 = true ∧ hasFormat .four 0xC1909000#32 = true) ∧
    BitVec.getLsbD 0xC1801008#32 3 = true ∧ BitVec.getLsbD 0xC1801010#32 4 = true ∧
    (hasFormat .two (0xC1901020#32 &&& ~~~0x20#32) = true ∧ BitVec.getLsbD 0xC1901020#32 5 = true) ∧
    (hasFormat .four (0xC1909020#32 &&& ~~~0x60#32) = true ∧ BitVec.getLsbD 0xC1909020#32 5 = true) ∧
    (hasFormat .four (0xC1909040#32 &&& ~~~0x60#32) = true ∧ BitVec.getLsbD 0xC1909040#32 6 = true) := by decide
/-- For `DecodeInvertsEncode`, `EncodeFollowsFormulas`, `DisassembledLineAssembles` and `EveryNumberIsInRange`. -/
theorem witness_WellFormed :
    (Instr.fmlalZaZzi1 .w11 14 31 15 7).WellFormed ∧ (Instr.fmlalZaZzi2xi .w11 6 30 15 7).WellFormed ∧
    (Instr.fmlalZaZzi4xi .w11 6 28 15 7).WellFormed ∧ (Instr.fmlalZaZzi1 .w8 0 0 0 0).WellFormed := by decide
theorem witness_EncodeInvertsDecode :
    inScope 0xC18FFFE7#32 = true ∧ inScope 0xC1901000#32 = true ∧ inScope 0xC19FFF87#32 = true := by decide
theorem witness_AssembledLinesAreLegal :
    (AsmLine.one 11 14 15 31 15 7).assemble = some 0xC18FFFE7#32 ∧
    (AsmLine.two false 9 2 3 2 3 4 5).assemble = some 0xC1943845#32 ∧
    (AsmLine.four true 8 2 3 4 7 0 1).assemble = some 0xC1909085#32 := by decide

/-! ## Fetch and step -/

/-- The first word, the end, a place not aligned, a place below and a place above: one word at 0x1000. -/
theorem witness_FetchFollowsProgramText :
    atLargest.base.toNat % 4 = 0 ∧ atLargest.base.toNat + 4 * atLargest.prog.length ≤ 2 ^ 64 ∧
    atLargest.prog.length < 2 ^ 62 ∧
    (atLargest.prog[0]? = some 0xC18FFFE7#32 ∧ atLargest.pc.toNat = atLargest.base.toNat + 4 * 0) ∧
    (atPc 0x1004#64).pc.toNat = ((atPc 0x1004#64).base.toNat + 4 * (atPc 0x1004#64).prog.length) % 2 ^ 64 ∧
    ([0x1002, 0xFFC, 0x1008].all fun a : Nat =>
      decide (∀ k < (atPc (BitVec.ofNat 64 a)).prog.length,
        (atPc (BitVec.ofNat 64 a)).pc.toNat ≠ (atPc (BitVec.ofNat 64 a)).base.toNat + 4 * k) &&
      decide ((atPc (BitVec.ofNat 64 a)).pc.toNat ≠
        ((atPc (BitVec.ofNat 64 a)).base.toNat + 4 * (atPc (BitVec.ofNat 64 a)).prog.length) % 2 ^ 64)) = true := by
  decide +kernel
theorem witness_StepRunsDecodedInstruction :
    fetch atLargest = .word 0xC18FFFE7#32 ∧ decode 0xC18FFFE7#32 = .ok (.fmlalZaZzi1 .w11 14 31 15 7) := by decide +kernel
theorem witness_OtherWordsAreRefused :
    inScope 0xC1801008#32 = false ∧ fetch (faultSample 0xC1801008#32 true .untrapped true true) = .word 0xC1801008#32 := by
  decide +kernel
theorem witness_BytesAreCutLittleEndian :
    ([0x00#8, 0x10#8, 0x80#8] : List Byte).length < 4 ∧ (Instr.fmlalZaZzi1 .w8 0 0 0 0).WellFormed := by decide
theorem witness_PlacedWordIsFetchedNext : (atPc 0xFFFFFFFFFFFFFFFC#64).pc.toNat % 4 = 0 := by decide +kernel

/-! ## Faults and refusals -/

/-- The six clauses in their order. -/
theorem witness_OutcomesAreTestedInOrder :
    (fetch (faultSample 0xC1801008#32 false .trapped false false) = .word 0xC1801008#32 ∧ inScope 0xC1801008#32 = false) ∧
    (fetch (faultSample 0xC1801000#32 false .trapped false false) = .word 0xC1801000#32 ∧ inScope 0xC1801000#32 = true ∧
      (faultSample 0xC1801000#32 false .trapped false false).cfg.featSme2 = false) ∧
    (faultSample 0xC1801000#32 true .trapped false false).accessTrapped = true ∧
    (faultSample 0xC1801000#32 true .untrapped false false).accessTrapped = false ∧
    (faultSample 0xC1801000#32 true .untrapped false false).pstate.sm = false ∧
    (faultSample 0xC1801000#32 true .untrapped true false).pstate.za = false ∧
    (fetch (faultSample 0xC1801000#32 true .untrapped true true) = .word 0xC1801000#32 ∧
      (faultSample 0xC1801000#32 true .untrapped true true).enabled = true ∧
      altFpRefused (faultSample 0xC1801000#32 true .untrapped true true).cfg
        (faultSample 0xC1801000#32 true .untrapped true true).fpcr = false) := by decide +kernel
/-- Each of the four faults is raised. -/
theorem witness_FaultsAreExactlyFour :
    (∃ f, exec (.fmlalZaZzi1 .w8 0 0 0 0) (faultSample 0xC1801000#32 false .untrapped true true) = .fault f) ∧
    (∃ f, exec (.fmlalZaZzi1 .w8 0 0 0 0) (faultSample 0xC1801000#32 true .trapped true true) = .fault f) ∧
    (∃ f, exec (.fmlalZaZzi2xi .w8 0 0 0 0) (faultSample 0xC1801000#32 true .untrapped false true) = .fault f) ∧
    (∃ f, exec (.fmlalZaZzi4xi .w8 0 0 0 0) (faultSample 0xC1801000#32 true .untrapped true false) = .fault f) :=
  ⟨⟨_, rfl⟩, ⟨_, rfl⟩, ⟨_, rfl⟩, ⟨_, rfl⟩⟩
theorem witness_UndefinedWithoutFeature :
    (Instr.fmlalZaZzi1 .w8 0 0 0 0).WellFormed ∧
    (faultSample 0xC1801000#32 false .untrapped true true).cfg.featSme2 = false := by decide +kernel
/-- Both sides of `FaultsExactlyWhenNotEnabled` occur: the four premises hold of one well-formed instruction's state. -/
theorem witness_FaultsExactlyWhenNotEnabled :
    (Instr.fmlalZaZzi1 .w11 14 31 15 7).WellFormed ∧ atLargest.enabled = true ∧
    (faultSample 0xC1801000#32 true .untrapped true false).enabled = false := by decide +kernel
/-- Both refusals occur, and so does a state that avoids them. -/
theorem witness_RefusalsOfExecAreExactlyTwo :
    (exec (.fmlalZaZzi1 .w8 1 0 0 0) atLargest = .refused .illFormed) ∧
    (exec (.fmlalZaZzi1 .w8 0 0 0 0)
      { atLargest with cfg := ⟨len128, true, true, .untrapped, .reference⟩, fpcr := 2#32 } =
        .refused .altFpNotSpecified) ∧
    completes atLargest = true := ⟨rfl, rfl, by decide +kernel⟩
theorem witness_EndedRunsKeepMarkAndState :
    stopOf (faultSample 0xC1801000#32 true .untrapped true false) =
      some (.inl (.smeAccessTrap .inactiveZa 0xC1801000#32 0x1000#64)) ∧
    stopOf (faultSample 0xC1801008#32 true .untrapped true true) = some (.inr (.notInScope 0xC1801008#32)) ∧
    Refusal.notInScope 0xC1801008#32 ≠ .endOfRun ∧ fetch (atPc 0x1004#64) = .ended := by decide +kernel

/-! ## The operation -/

/-- For `ElementCorrespondence` and the three form results: operands at their largest, an enabled state. -/
theorem witness_FormResults :
    (Instr.fmlalZaZzi1 .w11 14 31 15 7).WellFormed ∧ (Instr.fmlalZaZzi2xi .w11 6 30 15 7).WellFormed ∧
    (Instr.fmlalZaZzi4xi .w11 6 28 15 7).WellFormed ∧ atLargest.enabled = true ∧ atLargest.afpPlain = true ∧
    atLargest.currentVL / 8 = 16 := by decide +kernel
/-- An even offset and two select values that differ in bit 0. -/
theorem witness_VectorSelectionArithmetic :
    14 % 2 = 0 ∧ (0xFFFFFFFF#32).toNat / 2 = (0xFFFFFFFE#32).toNat / 2 := by decide
theorem witness_WrappingSelectShortcut :
    (⟨128, by decide⟩ : VectorLength).isArchitectural = true ∧ (⟨2048, by decide⟩ : VectorLength).isArchitectural = true := by
  decide
/-- An order of the passes other than the source's, and the last pass of the four-vector form. -/
theorem witness_LoopOrderIsNotObservable :
    ([(3, 1), (3, 0), (2, 1), (2, 0), (1, 1), (1, 0), (0, 1), (0, 0)] : List (Nat × Nat)).Perm
      ((List.range Form.four.nreg).flatMap fun r => (List.range 2).map fun i => (r, i)) ∧
    3 < Form.four.nreg ∧ 1 < 2 := by decide
/-- The largest numbers of `EveryNumberIsInRange` and `EveryFirstFactorIsUsedOnce` at `SVL` = 128. -/
theorem witness_EveryNumberIsInRange :
    (Instr.fmlalZaZzi4xi .w11 6 28 15 7).WellFormed ∧ 3 < (Instr.fmlalZaZzi4xi .w11 6 28 15 7).nreg ∧
    3 < len128.bits / 32 ∧ 7 < len128.bits / 16 ∧ 7 < 8 := by decide
/-- Both parts of `EveryFirstFactorIsUsedOnce`, at `SVL` = 128 and for the four-vector form: one element changed, the last
of its last first source, or one of `Z(m)` beside the indexed position, which reaches nothing. -/
theorem witness_EveryFirstFactorIsUsedOnce :
    let s := sample len128 0xC1909000#32 0#64 0#64 [] 0#32
    let i := Instr.fmlalZaZzi4xi .w11 6 28 15 7
    let changed (p j : Nat) : ZFile s.cfg.svl.bits := s.z.setIfInBounds p (setElem 0#_ j 0x3C00#16)
    (∀ p ∈ [(31, 7), (15, 6)],
      i.WellFormed ∧ s.enabled = true ∧ ({ s with z := changed p.1 p.2 } : State).enabled = true ∧ s.afpPlain = true ∧
      p.1 < 32 ∧ p.2 < s.cfg.svl.bits / 16 ∧
      ∀ p' < 32, ∀ q < s.cfg.svl.bits / 16, p' ≠ p.1 ∨ q ≠ p.2 →
        elem ((changed p.1 p.2)[p']?.getD 0#_) q 16 = elem (s.zReg p') q 16) ∧
    (3 < i.nreg ∧ 31 = i.n + 3) ∧ ((∀ r < i.nreg, 15 ≠ i.n + r) ∧ 6 % 8 ≠ i.index) := by decide +kernel
/-- Two states that differ in a `Z` register, a ZA vector, `X` bits the instruction `0xC1801000` does not use, `pc`,
`base` and the program. -/
theorem witness_ResultDependsOnNamedInputsOnly :
    let s := sample len128 0xC1801000#32 0#64 0#64 [] 0#32
    let z' : ZFile s.cfg.svl.bits := s.z.setIfInBounds 5 1#_
    let za1 : ZaArray s.cfg.svl.bits := zaWrite s.za 7 1#_
    let s' : State :=
      { s with z := z', za := za1, x8 := 0xFFFFFFFF00000001#64, x9 := 7#64, base := 8#64, pc := 12#64, prog := [] }
    let i := Instr.fmlalZaZzi1 .w8 0 0 0 0
    i.WellFormed ∧ s.enabled = true ∧ s'.enabled = true ∧ s.afpPlain = true ∧
    (s'.wReg i.v).toNat / 2 = (s.wReg i.v).toNat / 2 ∧
    (∀ r < i.nreg, ∀ j < s.cfg.svl.bits / 16, elem (z'[i.n + r]?.getD 0#_) j 16 = elem (s.zReg (i.n + r)) j 16) ∧
    (∀ g < s.cfg.svl.bits / 128,
      elem (z'[i.m]?.getD 0#_) (8 * g + i.index) 16 = elem (s.zReg i.m) (8 * g + i.index) 16) ∧
    (∀ r < i.nreg, ∀ h < 2,
      zaRead za1 (vecIndex s.cfg.svl.bits i.nreg (s.wReg i.v) i.offs r h) =
        zaRead s.za (vecIndex s.cfg.svl.bits i.nreg (s.wReg i.v) i.offs r h)) := by decide +kernel
theorem witness_ExecutingTwiceAccumulatesTwice :
    (Instr.fmlalZaZzi1 .w11 14 31 15 7).WellFormed ∧ atLargest.enabled = true ∧ atLargest.afpPlain = true ∧
    AccessConstant atLargest := by decide +kernel

/-! ## The whole machine -/

/-- For `StepChangesOnlyZaAndPc` and `PcAdvancesByFourAndStaysAligned`. -/
theorem witness_StepCompletes : ∃ t, step atLargest = .next t := (completes_iff _).1 (by decide +kernel)
theorem witness_LaunchReady : LaunchReady atLargest := by
  refine ⟨?_, ?_, ?_⟩ <;> decide +kernel
theorem witness_InText : InText atLargest := by
  refine ⟨?_, ?_, 0, ?_, ?_⟩ <;> decide +kernel
theorem witness_StepKeepsProgramTextInvariant : InText atLargest ∧ ∃ t, step atLargest = .next t :=
  ⟨witness_InText, witness_StepCompletes⟩
/-- Both ways of `ReadyMachineStepsAndStaysReady` occur: at a word, and at the end. -/
theorem witness_ReadyMachineStepsAndStaysReady :
    (Ready atLargest ∧ AccessConstant atLargest) ∧ (Ready (atPc 0x1004#64) ∧ fetch (atPc 0x1004#64) = .ended) := by
  refine ⟨⟨⟨witness_InText, ?_, ?_⟩, ?_⟩, ⟨⟨?_, ?_, 1, ?_, ?_⟩, ?_, ?_⟩, ?_⟩ <;> decide +kernel
theorem witness_RunEndsAfterLenSteps :
    LaunchReady atLargest ∧ AccessConstant atLargest ∧ atLargest.prog.length < 2 ^ 62 := by
  refine ⟨witness_LaunchReady, ?_, ?_⟩ <;> decide +kernel
theorem witness_FirstInstructionAfterResetTraps : inScope 0xC1801000#32 = true := by decide

/-! ## The reference numerics -/

/-- Two configurations that differ in their vector length and access control, and FPCR values with `AH`, `FIZ` clear. -/
theorem witness_FpFunctionFollowsConfiguration :
    (⟨len128, true, true, .untrapped, .referenceOrFree⟩ : Config).numerics =
      (⟨len256, false, true, .trapped, .referenceOrFree⟩ : Config).numerics ∧
    Numerics.referenceOrFree ≠ .configured ∧ BitVec.getLsbD 0xFFFFFFFC#32 1 = false ∧
    BitVec.getLsbD 0xFFFFFFFC#32 0 = false := by decide
/-- The largest operand of each format and a denormal, which is not flushed; a zero, with flushing. -/
theorem witness_UnpackedValuesAreExact :
    (HalfFinite 0x7BFF#16 ∧ HalfFinite 0x8001#16 ∧ SingleFinite 0x7F7FFFFF#32 ∧ SingleFinite 0x80000001#32) ∧
    (HalfFinite 0x8000#16 ∧ ¬(halfExp 0x8000#16 = 0 ∧ halfFrac 0x8000#16 ≠ 0 ∧ true = true)) ∧
    (SingleFinite 0x80000000#32 ∧ ¬(singleExp 0x80000000#32 = 0 ∧ singleFrac 0x80000000#32 ≠ 0 ∧ true = true)) := by decide
theorem witness_NaNOperandGivesDefaultNaN :
    SingleNaN 0xFFC12345#32 ∧ HalfNaN 0x7D00#16 ∧ HalfNaN 0xFE55#16 := by decide
/-- An infinity times a zero (here a flushed denormal), an infinity times a number, an infinite addend. -/
theorem witness_InfinitiesAndInvalidOperations :
    (HalfInf 0x7C00#16 ∧ HalfZero 0x00080000#32 0x0001#16 ∧ ¬ SingleNaN 0x3F800000#32) ∧
    (HalfInf 0xFC00#16 ∧ ¬ HalfZero 0#32 0x0001#16 ∧ ¬ HalfNaN 0x0001#16 ∧ ¬ HalfNaN 0xFC00#16) ∧
    (SingleInf 0xFF800000#32 ∧ ¬ SingleNaN 0xFF800000#32 ∧ ¬ HalfInf 0x7BFF#16) := by decide
theorem exactSum_of_used {a : Single} {x y : Half} {c : Word} {p q r : ℚ} (h1 : usedSingle c a = p)
    (h2 : usedHalf c x = q) (h3 : usedHalf c y = r) : exactSum a x y c = p + q * r := by
  rw [exactSum, h1, h2, h3]
theorem used_one : usedHalf 0#32 0x3C00#16 = 1 := by
  simp [usedHalf, halfValue, show halfSign 0x3C00#16 = false by decide, show halfExp 0x3C00#16 = 15 by decide,
    show halfFrac 0x3C00#16 = 0 by decide]
theorem used_minus_one : usedHalf 0#32 0xBC00#16 = -1 := by
  simp [usedHalf, halfValue, show halfSign 0xBC00#16 = true by decide, show halfExp 0xBC00#16 = 15 by decide,
    show halfFrac 0xBC00#16 = 0 by decide]
theorem single_one : singleValue 0x3F800000#32 = 1 := by
  simp [singleValue, show singleSign 0x3F800000#32 = false by decide, show singleExp 0x3F800000#32 = 127 by decide,
    show singleFrac 0x3F800000#32 = 0 by decide]
theorem single_two : singleValue 0x40000000#32 = 2 := by
  simp [singleValue, show singleSign 0x40000000#32 = false by decide, show singleExp 0x40000000#32 = 128 by decide,
    show singleFrac 0x40000000#32 = 0 by decide]
theorem used_single_one : usedSingle 0#32 0x3F800000#32 = 1 := by
  rw [usedSingle, if_neg (by decide), single_one]
/-- 1.0 + (-1.0) * 1.0 cancels. -/
theorem witness_ZeroSumsTakeTheirSign :
    SingleFinite 0x3F800000#32 ∧ HalfFinite 0xBC00#16 ∧ HalfFinite 0x3C00#16 ∧
    exactSum 0x3F800000#32 0xBC00#16 0x3C00#16 0#32 = 0 := by
  refine ⟨by decide, by decide, by decide, ?_⟩
  rw [exactSum_of_used used_single_one used_minus_one used_one]
  norm_num
/-- 1.0 + 1.0 * 1.0 = 2.0; the sum is not zero, in the mode to nearest. Also for the two rounding statements. -/
theorem witness_RepresentableSumIsExact :
    SingleFinite 0x3F800000#32 ∧ HalfFinite 0x3C00#16 ∧ SingleFinite 0x40000000#32 ∧ singleExp 0x40000000#32 ≠ 0 ∧
    exactSum 0x3F800000#32 0x3C00#16 0x3C00#16 0#32 = singleValue 0x40000000#32 ∧
    exactSum 0x3F800000#32 0x3C00#16 0x3C00#16 0#32 ≠ 0 ∧ roundingMode 0#32 = .rn := by
  have h : exactSum 0x3F800000#32 0x3C00#16 0x3C00#16 0#32 = 2 := by
    rw [exactSum_of_used used_single_one used_one used_one]
    norm_num
  refine ⟨by decide, by decide, by decide, by decide, ?_, ?_, by decide⟩
  · rw [h, single_two]
  · rw [h]
    norm_num
/-- For `ProductAloneIsExact` and `OutputIsNeverFlushed`: the smallest and the largest factor. -/
theorem witness_ProductAloneIsExact :
    HalfFinite 0x0001#16 ∧ HalfFinite 0xFBFF#16 ∧ ¬ HalfZero 0#32 0x0001#16 ∧ ¬ HalfZero 0x00080000#32 0xFBFF#16 := by
  decide
/-- For `OutputIsNeverFlushed`: finite operands, unflushed factors and a sum that is not zero. -/
theorem witness_OutputIsNeverFlushed :
    SingleFinite 0x3F800000#32 ∧ HalfFinite 0x3C00#16 ∧ ¬ HalfZero 0#32 0x3C00#16 ∧
    exactSum 0x3F800000#32 0x3C00#16 0x3C00#16 0#32 ≠ 0 :=
  ⟨by decide, by decide, by decide, witness_RepresentableSumIsExact.2.2.2.2.2.1⟩
/-- A denormal addend that is not flushed, with a factor that is a zero and one that is flushed. -/
theorem witness_ZeroProductKeepsAddend :
    (SingleFinite 0x00000001#32 ∧ ¬ SingleZero 0#32 0x00000001#32 ∧ HalfZero 0#32 0x8000#16 ∧ HalfFinite 0x7BFF#16) ∧
    (¬ SingleZero 0x00080000#32 0x00000001#32 ∧ HalfZero 0x00080000#32 0x83FF#16) := by decide
theorem witness_SignSymmetryInSymmetricModes :
    roundingMode 0x00000000#32 = .rn ∧ roundingMode 0x00C00000#32 = .rz := by decide
/-- The four modes, and the addends at the edge. -/
theorem witness_OverflowOnlyFromTheLargestAddend :
    SingleFinite 0x7F7FFFFF#32 ∧ SingleFinite 0xFF7FFFFF#32 ∧ HalfFinite 0x0001#16 ∧ roundingMode 0x00400000#32 = .rp ∧
    roundingMode 0x00800000#32 = .rm ∧ roundingMode 0x00C00000#32 = .rz := by decide
/-- The directed modes with the sum 1.0 + 1.0 * 1.0 have a sum that is not zero as well: `usedSingle` and `usedHalf`
read `FZ` and `FZ16` only. -/
theorem witness_DirectedRoundingIsTight :
    ∀ c ∈ [0x00400000#32, 0x00800000#32, 0x00C00000#32], exactSum 0x3F800000#32 0x3C00#16 0x3C00#16 c ≠ 0 := by
  intro c hc
  have hz : exactSum 0x3F800000#32 0x3C00#16 0x3C00#16 c = exactSum 0x3F800000#32 0x3C00#16 0x3C00#16 0#32 := by
    simp [exactSum, usedSingle, usedHalf, show singleExp 0x3F800000#32 ≠ 0 by decide, show halfExp 0x3C00#16 ≠ 0 by decide]
  rw [hz]
  exact witness_RepresentableSumIsExact.2.2.2.2.2.1
/-- The operands of the directed modes' witness are finite, and the modes are the three. -/
theorem witness_DirectedRoundingIsTight_operands :
    SingleFinite 0x3F800000#32 ∧ HalfFinite 0x3C00#16 ∧ roundingMode 0x00400000#32 = .rp ∧
    roundingMode 0x00800000#32 = .rm ∧ roundingMode 0x00C00000#32 = .rz := by decide
/-- The sum 1.0 + 1.0 * 1.0 to nearest. -/
theorem witness_NearestRoundingIsNearest :
    SingleFinite 0x3F800000#32 ∧ HalfFinite 0x3C00#16 ∧ exactSum 0x3F800000#32 0x3C00#16 0x3C00#16 0#32 ≠ 0 ∧
    roundingMode 0#32 = .rn :=
  ⟨by decide, by decide, witness_RepresentableSumIsExact.2.2.2.2.2.1, by decide⟩
/-- Two FPCR values that differ in every ignored bit: `AHP`, `DN`, the trap enables, the reserved ones. -/
theorem witness_OtherFpcrBitsAreIgnored :
    BitVec.getLsbD 0#32 19 = BitVec.getLsbD 0xFE37FFFF#32 19 ∧ BitVec.getLsbD 0#32 22 = BitVec.getLsbD 0xFE37FFFF#32 22 ∧
    BitVec.getLsbD 0#32 23 = BitVec.getLsbD 0xFE37FFFF#32 23 ∧ BitVec.getLsbD 0#32 24 = BitVec.getLsbD 0xFE37FFFF#32 24 := by
  decide

end Sys2Proof.Tests
end

section
/-!
The state after reset (00_scope.md R6; log entries 4, 5 and 6).
-/

namespace Sys2Proof.Machine

/-- A register file filled with the value that stands for a number outside it reads that value at every number. -/
theorem getD_getElem?_replicate {α : Type} (m : Nat) (x : α) (k : Nat) :
    (Vector.replicate m x)[k]?.getD x = x := by
  rw [Vector.getElem?_replicate]
  split <;> rfl

@[simp] theorem reset_xReg (v : VSel) : State.reset.xReg v = 0#64 := by
  cases v <;> rfl

@[simp] theorem reset_zReg (k : Nat) : State.reset.zReg k = 0#_ :=
  getD_getElem?_replicate 32 0#_ k

@[simp] theorem reset_zaRead (k : Nat) : zaRead State.reset.za k = 0#_ :=
  getD_getElem?_replicate _ 0#_ k

/-- Settles O41: the parameters, the program, `pc`, `base`, FPCR and PSTATE are fields of `State.reset`; the registers
and the ZA vectors are read through their accessors, and are zero at every number, so at those of the array. -/
theorem resetHoldsNamedValues : Obligations.ResetHoldsNamedValues :=
  ⟨rfl, rfl, rfl, rfl, rfl, rfl, rfl, rfl, rfl, rfl,
    reset_xReg, fun k _ => reset_zReg k, fun k _ => reset_zaRead k⟩

end Sys2Proof.Machine
end

section
/-!
The state under a step (10_state.md): what a completed step keeps, which parts of the state reach the result of an
instruction, and which bits of FPCR reach the reference numerics.
-/

namespace Sys2Proof.Machine

/-! ## When an instruction completes (70_reset_and_hazards.md R151) -/

theorem executionFault_eq_none_iff_enabled (w : Word) (s : State) :
    executionFault w s = none ↔ s.enabled = true := by
  rw [executionFault_eq_none]
  simp [State.enabled, and_assoc]

/-- An enabled state whose numerics are specified completes every instruction that has an encoding. -/
theorem exec_completes {i : Instr} {s : State} (hwf : i.WellFormed) (he : s.enabled = true) (ha : s.afpPlain = true) :
    exec i s = .next (fmlalNext i.nreg i.v i.offs i.n i.m i.index s) := by
  rw [exec_eq_fmlal]
  exact fmlal_completes hwf ((executionFault_eq_none_iff_enabled _ s).2 he) (by simpa [State.afpPlain] using ha)

/-! ## What a completed step keeps (R20, R24, R90) -/

/-- Settles O33: a completed step is one instruction's `fmlalNext`, which sets these two fields. -/
theorem stepChangesOnlyZaAndPc : Obligations.StepChangesOnlyZaAndPc := by
  intro s t h
  obtain ⟨_, i, _, _, _, _, _, rfl⟩ := step_next h
  exact ⟨fmlalZa i.nreg i.v i.offs i.n i.m i.index s, rfl⟩

/-- A word is fetched at a multiple of 4 only (20_memory.md R42). -/
theorem pc_aligned_of_fetch_word {s : State} {w : Word} (h : fetch s = .word w) : s.pc.toNat % 4 = 0 := by
  obtain ⟨hbase, k, hpc, _⟩ := (fetch_eq_word_iff s w).1 h
  omega

/-- Settles O34: the word was fetched at a multiple of 4, and 4 divides `2^64`, so wrapping keeps the alignment. -/
theorem pcAdvancesByFourAndStaysAligned : Obligations.PcAdvancesByFourAndStaysAligned := by
  intro s t h
  obtain ⟨w, i, hfetch, _, _, _, _, rfl⟩ := step_next h
  have haligned := pc_aligned_of_fetch_word hfetch
  rw [fmlalNext_pc, BitVec.toNat_add, BitVec.toNat_ofNat]
  omega

/-- Settles O36: no program is placed, and `pc` and `base` are both 0, so `pc` is at the end of the empty program. -/
theorem resetMeetsProgramTextInvariant : Obligations.ResetMeetsProgramTextInvariant :=
  ⟨rfl, by decide, 0, Nat.le_refl 0, rfl⟩

/-! ## What reaches the selected vectors (R81, R82) -/

theorem offs_even_of_wellFormed {i : Instr} (h : i.WellFormed) : i.offs % 2 = 0 := by
  cases i with
  | fmlalZaZzi1 v offs n m index => exact ((wellFormed_one_iff v offs n m index).1 h).1
  | fmlalZaZzi2xi v offs n m index => exact ((wellFormed_two_iff v offs n m index).1 h).1
  | fmlalZaZzi4xi v offs n m index => exact ((wellFormed_four_iff v offs n m index).1 h).1

/-- With an even offset the first selected vector is computed from bits 31:1 of the select value alone: `vstride` is
even, so halving commutes with the reduction. -/
theorem vecFirst_eq_two_mul (len : VectorLength) (f : Form) (wv : Word) {offs : Nat} (ho : offs % 2 = 0) :
    vecFirst len.bits f.nreg wv offs =
      2 * ((wv.toNat / 2 + offs / 2) % (vstride len.bits f.nreg / 2)) := by
  have hstride : vstride len.bits f.nreg = 2 * (vstride len.bits f.nreg / 2) := by
    have := vstride_even len f
    omega
  have hhalf : vecReduced len.bits f.nreg wv offs / 2 =
      (wv.toNat + offs) / 2 % (vstride len.bits f.nreg / 2) := by
    rw [vecReduced, ← Nat.mod_mul_right_div_self, ← hstride]
  have hsum : (wv.toNat + offs) / 2 = wv.toNat / 2 + offs / 2 := by omega
  rw [← hsum, ← hhalf, vecFirst]
  omega

/-- Bit 0 of the select register does not reach the selection (R81, R89). -/
theorem vecIndex_congr_of_half_eq (len : VectorLength) (f : Form) {wv wv' : Word} {offs : Nat} (ho : offs % 2 = 0)
    (h : wv'.toNat / 2 = wv.toNat / 2) (r i : Nat) :
    vecIndex len.bits f.nreg wv' offs r i = vecIndex len.bits f.nreg wv offs r i := by
  rw [vecIndex, vecIndex, vecFirst_eq_two_mul len f wv' ho, vecFirst_eq_two_mul len f wv ho, h]

/-- The indexed element, counted from its 128-bit segment `e / 4`. -/
theorem segmentElement_eq (e index : Nat) : segmentElement e index = 8 * (e / 4) + index := by
  simp only [segmentElement]
  omega

/-- A computed vector depends on the old vector, on the first source's elements, and of the indexed source on one
element of each 128-bit segment (R82). -/
theorem fmlalVector_congr (len : VectorLength) (fp : Single → Half → Half → Single) {h : Nat} (hh : h < 2)
    (index : Nat) {op1 op1' op2 op2' op3 op3' : BitVec len.bits}
    (h1 : ∀ j < len.bits / 16, elem op1' j 16 = elem op1 j 16)
    (h2 : ∀ g < len.bits / 128, elem op2' (8 * g + index) 16 = elem op2 (8 * g + index) 16) (h3 : op3' = op3) :
    fmlalVector fp h index op1' op2' op3' = fmlalVector fp h index op1 op2 op3 := by
  have hlegal := len.legal
  refine buildVector_congr _ _ _ fun e he => ?_
  rw [segmentElement_eq, h1 (2 * e + h) (by omega), h2 (e / 4) (by omega), h3]

/-- Settles O31: both runs complete; they select the same vectors, and each selected vector is computed from elements on
which the two states agree. -/
theorem resultDependsOnNamedInputsOnly : Obligations.ResultDependsOnNamedInputsOnly := by
  intro i s z' za1 y8 y9 y10 y11 base' pc' prog' s' hwf he he' ha hsel h1 h2 hza
  refine ⟨fmlalZa i.nreg i.v i.offs i.n i.m i.index s, fmlalZa i.nreg i.v i.offs i.n i.m i.index s',
    exec_completes hwf he ha, exec_completes (s := s') hwf he' ha, fun r hr h hh => ?_⟩
  have hindex : vecIndex s'.currentVL i.nreg (s'.wReg i.v) i.offs r h =
      vecIndex s.currentVL i.nreg (s.wReg i.v) i.offs r h :=
    vecIndex_congr_of_half_eq s.cfg.svl i.form (offs_even_of_wellFormed hwf) hsel r h
  have hvector := zaRead_fmlalZa_selected i.form i.v i.offs i.n i.m i.index s r h hr hh
  have hvector' := zaRead_fmlalZa_selected i.form i.v i.offs i.n i.m i.index s' r h hr hh
  rw [hindex] at hvector'
  exact hvector'.trans
    ((fmlalVector_congr s.cfg.svl _ hh i.index (h1 r hr) h2 (hza r hr h hh)).trans hvector.symm)

/-! ## What reaches the reference numerics (R25, R108, R109) -/

theorem roundingMode_congr {c c' : Word} (h22 : c.getLsbD 22 = c'.getLsbD 22) (h23 : c.getLsbD 23 = c'.getLsbD 23) :
    roundingMode c = roundingMode c' := by
  have hfield : c.extractLsb' 22 2 = c'.extractLsb' 22 2 := by
    apply BitVec.eq_of_getLsbD_eq
    intro j hj
    rw [BitVec.getLsbD_extractLsb', BitVec.getLsbD_extractLsb']
    interval_cases j
    · rw [h22]
    · rw [h23]
  rw [roundingMode, roundingMode, hfield]

/-- Settles O56: FPCR enters the reference definition through `RMode`, `FZ` and `FZ16` only. -/
theorem otherFpcrBitsAreIgnored : Obligations.OtherFpcrBitsAreIgnored := by
  intro a x y c c' h19 h22 h23 h24
  have hfz16 : fpcrFz16 c = fpcrFz16 c' := h19
  have hfz : fpcrFz c = fpcrFz c' := h24
  rw [fpMulAddReference, fpMulAddReference, hfz16, hfz, roundingMode_congr h22 h23]

end Sys2Proof.Machine
end

section
/-!
The bytes of a word (20_memory.md R42, 30_encoding.md R50): how a word is cut into bytes and read back, and that the
word of an instruction decodes to it.
-/

namespace Sys2Proof

/-! ## Decoding inverts encoding (30_encoding.md R72) -/

theorem decode_of_hasFormat_one {w : Word} (h : hasFormat .one w = true) : decode w = .ok (decodeOne w) := by
  simp [decode, h]

theorem decode_of_hasFormat_two {w : Word} (h : hasFormat .two w = true) : decode w = .ok (decodeTwo w) := by
  have hone : ¬ hasFormat .one w = true := by
    rw [hasFormat_one_iff]
    rw [hasFormat_two_iff] at h
    omega
  simp [decode, hone, h]

theorem decode_of_hasFormat_four {w : Word} (h : hasFormat .four w = true) : decode w = .ok (decodeFour w) := by
  have hone : ¬ hasFormat .one w = true := by
    rw [hasFormat_one_iff]
    rw [hasFormat_four_iff] at h
    omega
  have htwo : ¬ hasFormat .two w = true := by
    rw [hasFormat_two_iff]
    rw [hasFormat_four_iff] at h
    omega
  simp [decode, hone, htwo, h]

/-- The select register is read back from the field `Rv` (R56). -/
theorem decodeVSel_eq_of_field {w : Word} {v : VSel} (h : w.toNat / 2 ^ 13 % 4 = v.number - 8) :
    decodeVSel w = v := by
  have hv := number_range v
  rw [← number_inj, decodeVSel_number]
  omega

/-- The word that is the sum of these fields of za_zzi_1 decodes to them (R52, R56 to R60). -/
theorem decodeOne_of_sum {w : Word} {v : VSel} {off3 n m i3h i3l : Nat}
    (hw : w.toNat = 0xC1801000 + m * 2 ^ 16 + i3h * 2 ^ 15 + (v.number - 8) * 2 ^ 13 + i3l * 2 ^ 10 + n * 2 ^ 5 + off3)
    (hoff : off3 < 8) (hn : n < 32) (hm : m < 16) (hhigh : i3h < 2) (hlow : i3l < 4) :
    decodeOne w = .fmlalZaZzi1 v (2 * off3) n m (4 * i3h + i3l) := by
  have hv := number_range v
  rw [decodeOne, decodeVSel_eq_of_field (v := v) (by omega)]
  simp only [field_eq, Instr.fmlalZaZzi1.injEq, true_and]
  refine ⟨?_, ?_, ?_, ?_⟩ <;> omega

/-- The word that is the sum of these fields of za_zzi_2xi decodes to them (R53, R56 to R60). -/
theorem decodeTwo_of_sum {w : Word} {v : VSel} {off2 zn m i3h i3l : Nat}
    (hw : w.toNat = 0xC1901000 + m * 2 ^ 16 + (v.number - 8) * 2 ^ 13 + i3h * 2 ^ 10 + zn * 2 ^ 6 + i3l * 2 ^ 2 + off2)
    (hoff : off2 < 4) (hn : zn < 16) (hm : m < 16) (hhigh : i3h < 4) (hlow : i3l < 2) :
    decodeTwo w = .fmlalZaZzi2xi v (2 * off2) (2 * zn) m (2 * i3h + i3l) := by
  have hv := number_range v
  rw [decodeTwo, decodeVSel_eq_of_field (v := v) (by omega)]
  simp only [field_eq, Instr.fmlalZaZzi2xi.injEq, true_and]
  refine ⟨?_, ?_, ?_, ?_⟩ <;> omega

/-- The word that is the sum of these fields of za_zzi_4xi decodes to them (R54, R56 to R60). -/
theorem decodeFour_of_sum {w : Word} {v : VSel} {off2 zn m i3h i3l : Nat}
    (hw : w.toNat = 0xC1909000 + m * 2 ^ 16 + (v.number - 8) * 2 ^ 13 + i3h * 2 ^ 10 + zn * 2 ^ 7 + i3l * 2 ^ 2 + off2)
    (hoff : off2 < 4) (hn : zn < 8) (hm : m < 16) (hhigh : i3h < 4) (hlow : i3l < 2) :
    decodeFour w = .fmlalZaZzi4xi v (2 * off2) (4 * zn) m (2 * i3h + i3l) := by
  have hv := number_range v
  rw [decodeFour, decodeVSel_eq_of_field (v := v) (by omega)]
  simp only [field_eq, Instr.fmlalZaZzi4xi.injEq, true_and]
  refine ⟨?_, ?_, ?_, ?_⟩ <;> omega

theorem decodeOne_encode {v : VSel} {offs n m index : Nat} (h : (Instr.fmlalZaZzi1 v offs n m index).WellFormed) :
    decodeOne (encode (.fmlalZaZzi1 v offs n m index)) = .fmlalZaZzi1 v offs n m index := by
  rw [wellFormed_one_iff] at h
  rw [decodeOne_of_sum (encode_one_toNat v offs n m index) (by omega) (by omega) (by omega) (by omega) (by omega)]
  simp only [Instr.fmlalZaZzi1.injEq, true_and]
  omega

theorem decodeTwo_encode {v : VSel} {offs n m index : Nat} (h : (Instr.fmlalZaZzi2xi v offs n m index).WellFormed) :
    decodeTwo (encode (.fmlalZaZzi2xi v offs n m index)) = .fmlalZaZzi2xi v offs n m index := by
  rw [wellFormed_two_iff] at h
  rw [decodeTwo_of_sum (encode_two_toNat v offs n m index) (by omega) (by omega) (by omega) (by omega) (by omega)]
  simp only [Instr.fmlalZaZzi2xi.injEq, true_and]
  omega

theorem decodeFour_encode {v : VSel} {offs n m index : Nat} (h : (Instr.fmlalZaZzi4xi v offs n m index).WellFormed) :
    decodeFour (encode (.fmlalZaZzi4xi v offs n m index)) = .fmlalZaZzi4xi v offs n m index := by
  rw [wellFormed_four_iff] at h
  rw [decodeFour_of_sum (encode_four_toNat v offs n m index) (by omega) (by omega) (by omega) (by omega) (by omega)]
  simp only [Instr.fmlalZaZzi4xi.injEq, true_and]
  omega

theorem decode_encode {i : Instr} (h : i.WellFormed) : decode (encode i) = .ok i := by
  cases i with
  | fmlalZaZzi1 v offs n m index =>
    rw [decode_of_hasFormat_one (Laws.EncodeFixedBits.fmlalZaZzi1 v offs n m index), decodeOne_encode h]
  | fmlalZaZzi2xi v offs n m index =>
    rw [decode_of_hasFormat_two (Laws.EncodeFixedBits.fmlalZaZzi2xi v offs n m index), decodeTwo_encode h]
  | fmlalZaZzi4xi v offs n m index =>
    rw [decode_of_hasFormat_four (Laws.EncodeFixedBits.fmlalZaZzi4xi v offs n m index), decodeFour_encode h]

/-! ## The bytes of a word (R42, R50) -/

theorem wordOfBytes_toNat (b0 b1 b2 b3 : Byte) : (wordOfBytes b0 b1 b2 b3).toNat =
    b0.toNat + 2 ^ 8 * b1.toNat + 2 ^ 16 * b2.toNat + 2 ^ 24 * b3.toNat := by
  simp only [wordOfBytes, toNat_append_eq_add]
  omega

theorem wordOfBytes_extract (w : Word) :
    wordOfBytes (w.extractLsb' 0 8) (w.extractLsb' 8 8) (w.extractLsb' 16 8) (w.extractLsb' 24 8) = w := by
  apply BitVec.eq_of_toNat_eq
  have hw := w.isLt
  simp only [wordOfBytes_toNat, BitVec.extractLsb'_toNat, Nat.shiftRight_eq_div_pow]
  omega

theorem decodeBytes_of_short {bs : List Byte} (h : bs.length < 4) : decodeBytes bs = .error .truncated := by
  match bs, h with
  | [], _ => rfl
  | [_], _ => rfl
  | [_, _], _ => rfl
  | [_, _, _], _ => rfl
  | _ :: _ :: _ :: _ :: rest, h =>
    simp only [List.length_cons] at h
    omega

/-- The bytes of a decoding word are read back as its instruction, and the bytes after them are left. -/
theorem decodeBytes_bytesOfWord_append {w : Word} {i : Instr} (h : decode w = .ok i) (rest : List Byte) :
    decodeBytes (bytesOfWord w ++ rest) = .ok (i, rest) := by
  simp [bytesOfWord, decodeBytes, wordOfBytes_extract, h]

/-- Settles O14: a word is the sum of its bytes, so cutting it into bytes loses nothing, and decoding inverts
encoding. -/
theorem bytesAreCutLittleEndian : Obligations.BytesAreCutLittleEndian :=
  ⟨wordOfBytes_toNat, fun _ h => decodeBytes_of_short h,
    fun _ rest hwf => decodeBytes_bytesOfWord_append (decode_encode hwf) rest⟩

end Sys2Proof
end

section
/-!
Instruction fetch (20_memory.md R42, R47): what a step does with what the fetch finds, where a fetch finds a word, the
end of the program or neither, and what `State.withFetchWord` places.
-/

namespace Sys2Proof.Machine

/-! ## A step by what the fetch finds (R12, R42) -/

theorem step_of_decode {s : State} {w : Word} {i : Instr} (hw : fetch s = .word w) (hi : decode w = .ok i) :
    step s = exec i s := by
  simp [step, hw, hi]

theorem step_of_fetch_ended {s : State} (h : fetch s = .ended) : step s = .refused .endOfRun := by
  simp [step, h]

theorem step_of_fetch_outside {s : State} (h : fetch s = .outside) : step s = .refused (.fetchOutside s.pc) := by
  simp [step, h]

/-- Settles O12: `step` has no other work to do for a word that decodes. -/
theorem stepRunsDecodedInstruction : Obligations.StepRunsDecodedInstruction :=
  fun _ _ _ => step_of_decode

/-! ## The program text at `pc` (R42) -/

/-- The end address is compared as a 64-bit address (log entry 10). -/
theorem atEnd_iff (s : State) :
    s.atEnd = true ↔ s.base.toNat % 4 = 0 ∧ s.pc.toNat = (s.base.toNat + 4 * s.prog.length) % 2 ^ 64 := by
  simp [State.atEnd, State.baseAligned, ← BitVec.toNat_inj]

/-- A fetched word stands at one of the program's places. -/
theorem place_of_fetch_word {s : State} {w : Word} (h : fetch s = .word w) :
    ∃ k < s.prog.length, s.base.toNat % 4 = 0 ∧ s.pc.toNat = s.base.toNat + 4 * k := by
  obtain ⟨hbase, k, hpc, hw⟩ := (fetch_eq_word_iff s w).1 h
  exact ⟨k, (List.getElem?_eq_some_iff.1 hw).1, hbase, hpc⟩

/-- Where `pc` is at no word of the program, none is fetched. -/
theorem fetch_ne_word {s : State} (h : ∀ k < s.prog.length, s.pc.toNat ≠ s.base.toNat + 4 * k) (w : Word) :
    fetch s ≠ .word w := by
  intro hfetch
  obtain ⟨k, hk, _, hpc⟩ := place_of_fetch_word hfetch
  exact h k hk hpc

/-- The end of a program of fewer than `2^62` words is none of its words: where it wraps to address 0, a word at 0 would
need the program to fill the whole address space (log entry 10). -/
theorem end_ne_word_address {base len k : Nat} (hplaced : base + 4 * len ≤ 2 ^ 64) (hlen : len < 2 ^ 62) (hk : k < len) :
    (base + 4 * len) % 2 ^ 64 ≠ base + 4 * k := by
  omega

/-- Settles O11: a word is found exactly at its address, and the rest is decided by the end of the program. -/
theorem fetchFollowsProgramText : Obligations.FetchFollowsProgramText := by
  intro s hbase hplaced hlen
  refine ⟨fun k w hw hpc => (fetch_eq_word_iff s w).2 ⟨hbase, k, hpc, hw⟩, fun hend => ?_, fun hwords hend => ?_⟩
  · have hfetch : fetch s = .ended := by
      rw [fetch_of_no_word s (fetch_ne_word fun k hk => hend ▸ end_ne_word_address hplaced hlen hk),
        if_pos ((atEnd_iff s).2 ⟨hbase, hend⟩)]
    exact ⟨hfetch, step_of_fetch_ended hfetch⟩
  · have hfetch : fetch s = .outside := by
      rw [fetch_of_no_word s (fetch_ne_word hwords), if_neg fun h => hend ((atEnd_iff s).1 h).2]
    exact ⟨hfetch, step_of_fetch_outside hfetch⟩

/-- After the word number `k` of a placed program, `pc` is at number `k + 1`, which may be the end. -/
theorem add_four_eq_next_word {pc base : DWord} {k : Nat} (h : pc.toNat = base.toNat + 4 * k) :
    pc + 4#64 = base + BitVec.ofNat 64 (4 * (k + 1)) := by
  apply BitVec.eq_of_toNat_eq
  simp only [BitVec.toNat_add, BitVec.toNat_ofNat]
  omega

/-- Settles O35: a completed step fetched a word of the program, keeps the program and `base`, and moves `pc` to the
place after that word. -/
theorem stepKeepsProgramTextInvariant : Obligations.StepKeepsProgramTextInvariant := by
  rintro s t ⟨hscope, hplaced, _⟩ hstep
  obtain ⟨w, i, hfetch, _, _, _, _, rfl⟩ := step_next hstep
  obtain ⟨k, hk, _, hpc⟩ := place_of_fetch_word hfetch
  exact ⟨hscope, hplaced, k + 1, hk, add_four_eq_next_word hpc⟩

/-! ## The word placed where the next fetch reads (log entry 8) -/

theorem fetchIndex_eq_some_iff (s : State) (k : Nat) :
    s.fetchIndex = some k ↔ s.base.toNat % 4 = 0 ∧ s.pc.toNat = s.base.toNat + 4 * k := by
  simp only [State.fetchIndex, State.baseAligned, Option.ite_none_right_eq_some, Option.some.injEq, Bool.and_eq_true,
    beq_iff_eq, decide_eq_true_eq]
  omega

/-- A word as the 32-bit table row `withFetchWord` reads. -/
theorem ofNat_toNat_mod (w : Word) : BitVec.ofNat 32 (w.toNat % 2 ^ 32) = w := by
  rw [Nat.mod_eq_of_lt w.isLt, BitVec.ofNat_toNat, BitVec.setWidth_eq]

/-- `withFetchWord` at a word of the program replaces that word. -/
theorem withFetchWord_of_word {s : State} {w' : Word} (h : fetch s = .word w') (w : Word) :
    ∃ k < s.prog.length, s.base.toNat % 4 = 0 ∧ s.pc.toNat = s.base.toNat + 4 * k ∧
      s.withFetchWord 32 w.toNat = { s with prog := s.prog.set k w } := by
  obtain ⟨k, hk, hbase, hpc⟩ := place_of_fetch_word h
  have hindex := (fetchIndex_eq_some_iff s k).2 ⟨hbase, hpc⟩
  refine ⟨k, hk, hbase, hpc, ?_⟩
  simp only [State.withFetchWord, h, hindex, ofNat_toNat_mod]

/-- `withFetchWord` elsewhere places a program of one word at `pc`, with its low two bits cleared. -/
theorem withFetchWord_of_no_word {s : State} (h : ∀ w', fetch s ≠ .word w') (w : Word) :
    s.withFetchWord 32 w.toNat =
      { s with
        prog := [w]
        base := BitVec.ofNat 64 (s.pc.toNat / 4 * 4)
        pc := BitVec.ofNat 64 (s.pc.toNat / 4 * 4) } := by
  unfold State.withFetchWord
  split
  · rename_i hw' _
    exact absurd hw' (h _)
  · rw [ofNat_toNat_mod]

/-- The low two bits of an aligned address are clear already. -/
theorem ofNat_clear_low_of_aligned {a : DWord} (h : a.toNat % 4 = 0) : BitVec.ofNat 64 (a.toNat / 4 * 4) = a := by
  rw [Nat.div_mul_cancel (Nat.dvd_of_mod_eq_zero h), BitVec.ofNat_toNat, BitVec.setWidth_eq]

/-- Settles O15: the word stands at the number of the fetched word, or alone at `pc`. -/
theorem placedWordIsFetchedNext : Obligations.PlacedWordIsFetchedNext := by
  intro s w
  by_cases h : ∃ w', fetch s = .word w'
  · obtain ⟨w', hw'⟩ := h
    obtain ⟨k, hk, hbase, hpc, heq⟩ := withFetchWord_of_word hw' w
    rw [heq]
    refine ⟨(fetch_eq_word_iff _ w).2 ⟨hbase, k, hpc, ?_⟩, _, _, _, rfl, fun _ => rfl⟩
    exact List.getElem?_set_self hk
  · rw [withFetchWord_of_no_word (not_exists.1 h)]
    refine ⟨(fetch_eq_word_iff _ w).2 ⟨?_, 0, rfl, rfl⟩, _, _, _, rfl, ofNat_clear_low_of_aligned⟩
    rw [BitVec.toNat_ofNat]
    omega

end Sys2Proof.Machine
end

section
/-!
Decoding and encoding (30_encoding.md R50 to R65, R72): the fixed bits of the three formats, the fields a decoding word
gives its instruction, and the encoder as the spec's formulas.
-/

namespace Sys2Proof

open Machine

/-- Settles O4: the encoded word has its form's fixed bits, and each operand is read back from its field. -/
theorem decodeInvertsEncode : Obligations.DecodeInvertsEncode :=
  fun _ hwf => decode_encode hwf

/-! ## Formats: the mask test and the fixed bits (R52 to R55, R62) -/

theorem hasFormat_iff_mask (f : Form) (w : Word) :
    hasFormat f w = true ↔ w &&& (formatOf f).mask = (formatOf f).value :=
  beq_iff_eq

/-- A bit the mask of a format covers is the bit of its match value. -/
theorem getLsbD_of_hasFormat {f : Form} {w : Word} {j : Nat} (h : hasFormat f w = true)
    (hj : (formatOf f).mask.getLsbD j = true) : w.getLsbD j = (formatOf f).value.getLsbD j := by
  rw [← (hasFormat_iff_mask f w).1 h, BitVec.getLsbD_and, hj, Bool.and_true]

/-- The format that bits 20 and 15 decide (R55); in za_zzi_1, bit 15 is a bit of the index. -/
def formOfBits (b20 b15 : Bool) : Form :=
  if b20 then (if b15 then .four else .two) else .one

theorem formOfBits_of_hasFormat {f : Form} {w : Word} (h : hasFormat f w = true) :
    formOfBits (w.getLsbD 20) (w.getLsbD 15) = f := by
  cases f with
  | one =>
    have h20 : w.getLsbD 20 = false := getLsbD_of_hasFormat h rfl
    rw [h20]
    rfl
  | two =>
    have h20 : w.getLsbD 20 = true := getLsbD_of_hasFormat h rfl
    have h15 : w.getLsbD 15 = false := getLsbD_of_hasFormat h rfl
    rw [h20, h15]
    rfl
  | four =>
    have h20 : w.getLsbD 20 = true := getLsbD_of_hasFormat h rfl
    have h15 : w.getLsbD 15 = true := getLsbD_of_hasFormat h rfl
    rw [h20, h15]
    rfl

/-- Two words of a format that agree in bits 20 and 15 have the same one (R55). -/
theorem form_eq_of_bits {f g : Form} {w w' : Word} (hf : hasFormat f w = true) (hg : hasFormat g w' = true)
    (h20 : w.getLsbD 20 = w'.getLsbD 20) (h15 : w.getLsbD 15 = w'.getLsbD 15) : f = g := by
  rw [← formOfBits_of_hasFormat hf, ← formOfBits_of_hasFormat hg, h20, h15]

/-- The bits of the dropped-name fields `S` and `op` are 0 in each format (R62). -/
theorem bits_S_op_of_hasFormat {f : Form} {w : Word} (h : hasFormat f w = true) :
    w.getLsbD 3 = false ∧ w.getLsbD 4 = false := by
  cases f <;> exact ⟨getLsbD_of_hasFormat h rfl, getLsbD_of_hasFormat h rfl⟩

/-- Clearing bits other than 20 and 15 leads from a word of one format to no word of another. -/
theorem form_eq_of_hasFormat_and {f g : Form} {w c : Word} (hf : hasFormat f w = true)
    (hg : hasFormat g (w &&& c) = true) (h20 : c.getLsbD 20 = true) (h15 : c.getLsbD 15 = true) : f = g :=
  form_eq_of_bits hf hg (by simp [h20]) (by simp [h15])

/-- Settles O3: bits 20 and 15 decide the format, so a word that lost its format by bits 6:5 is of no other one; and the
bits the statement sets are fixed at 0. -/
theorem formatsAreDisjoint : Obligations.FormatsAreDisjoint := by
  refine ⟨fun w f g hf hg => form_eq_of_bits hf hg rfl rfl, fun w f hbit => Bool.eq_false_iff.2 fun hf => ?_,
    fun w f htwo hbit => Bool.eq_false_iff.2 fun hf => ?_, fun w f hfour hbit => Bool.eq_false_iff.2 fun hf => ?_⟩
  · obtain ⟨h3, h4⟩ := bits_S_op_of_hasFormat hf
    rw [h3, h4] at hbit
    simp at hbit
  · obtain rfl := form_eq_of_hasFormat_and hf htwo rfl rfl
    have h5 : w.getLsbD 5 = false := getLsbD_of_hasFormat hf rfl
    rw [h5] at hbit
    cases hbit
  · obtain rfl := form_eq_of_hasFormat_and hf hfour rfl rfl
    have h5 : w.getLsbD 5 = false := getLsbD_of_hasFormat hf rfl
    have h6 : w.getLsbD 6 = false := getLsbD_of_hasFormat hf rfl
    rw [h5, h6] at hbit
    simp at hbit

/-! ## Formats: the diagrams' fixed fields (R52 to R54) -/

theorem extractLsb'_eq_iff (w : Word) (lo : Nat) {len : Nat} (x : BitVec len) :
    w.extractLsb' lo len = x ↔ w.toNat / 2 ^ lo % 2 ^ len = x.toNat := by
  rw [← BitVec.toNat_inj, BitVec.extractLsb'_toNat, Nat.shiftRight_eq_div_pow]

/-- The twelve top bits need no remainder. -/
theorem top_field_eq (w : Word) : w.toNat / 2 ^ 20 % 2 ^ 12 = w.toNat / 2 ^ 20 := by
  have hw := w.isLt
  omega

theorem hasFormat_one_iff_diagram (w : Word) :
    hasFormat .one w = true ↔
      w.extractLsb' 20 12 = 0b110000011000#12 ∧ w.extractLsb' 12 1 = 1#1 ∧ w.extractLsb' 3 2 = 0#2 := by
  simp only [hasFormat_one_iff, extractLsb'_eq_iff, top_field_eq]
  rfl

theorem hasFormat_two_iff_diagram (w : Word) :
    hasFormat .two w = true ↔
      w.extractLsb' 20 12 = 0b110000011001#12 ∧ w.extractLsb' 15 1 = 0#1 ∧ w.extractLsb' 12 1 = 1#1 ∧
        w.extractLsb' 3 3 = 0#3 := by
  simp only [hasFormat_two_iff, extractLsb'_eq_iff, top_field_eq]
  rfl

theorem hasFormat_four_iff_diagram (w : Word) :
    hasFormat .four w = true ↔
      w.extractLsb' 20 12 = 0b110000011001#12 ∧ w.extractLsb' 15 1 = 1#1 ∧ w.extractLsb' 12 1 = 1#1 ∧
        w.extractLsb' 3 4 = 0#4 := by
  simp only [hasFormat_four_iff, extractLsb'_eq_iff, top_field_eq]
  rfl

/-! ## The fields a word decodes to (R52 to R60) -/

theorem decodeVSel_number_eq_field (w : Word) : (decodeVSel w).number - 8 = field w 13 2 := by
  rw [decodeVSel_number, Nat.add_sub_cancel_left]
  exact (field_eq w 13 2).symm

theorem decodeVSel_code (w : Word) : (decodeVSel w).code = w.extractLsb' 13 2 :=
  BitVec.eq_of_toNat_eq ((code_toNat _).trans (decodeVSel_number_eq_field w))

theorem field_lt (w : Word) (lo len : Nat) : field w lo len < 2 ^ len :=
  (w.extractLsb' lo len).isLt

theorem field_zero_eq (w : Word) (len : Nat) : field w 0 len = w.toNat % 2 ^ len := by
  rw [field_eq, Nat.pow_zero, Nat.div_one]

/-- Two fields side by side, the one on the left more significant. -/
theorem toNat_append_extract (w : Word) (hi hlen lo len : Nat) :
    (w.extractLsb' hi hlen ++ w.extractLsb' lo len).toNat = 2 ^ len * field w hi hlen + field w lo len := by
  rw [toNat_append_eq_add, Nat.mul_comm]
  rfl

/-- Settles O1: the mask covers the diagram's fixed fields, and the decoder's arithmetic on fields is concatenation. -/
theorem formatsFollowDiagrams : Obligations.FormatsFollowDiagrams := by
  refine fun w => ⟨hasFormat_iff_mask .one w, hasFormat_iff_mask .two w, hasFormat_iff_mask .four w,
    hasFormat_one_iff_diagram w, hasFormat_two_iff_diagram w, hasFormat_four_iff_diagram w,
    fun h => ⟨decodeVSel w, decodeVSel_code w, ?_⟩, fun h => ⟨decodeVSel w, decodeVSel_code w, ?_⟩,
    fun h => ⟨decodeVSel w, decodeVSel_code w, ?_⟩⟩
  · rw [decode_of_hasFormat_one h, toNat_append_extract]
    rfl
  · rw [decode_of_hasFormat_two h, toNat_append_extract]
    rfl
  · rw [decode_of_hasFormat_four h, toNat_append_extract]
    rfl

/-- Everything a decoding word can be: one of the three formats, decoded by its own fields (R63). -/
theorem decode_eq_ok_cases {w : Word} {i : Instr} (h : decode w = .ok i) :
    (hasFormat .one w = true ∧ i = decodeOne w) ∨ (hasFormat .two w = true ∧ i = decodeTwo w) ∨
      (hasFormat .four w = true ∧ i = decodeFour w) := by
  unfold decode at h
  split at h
  · rename_i hone
    exact .inl ⟨hone, (Except.ok.inj h).symm⟩
  · split at h
    · rename_i htwo
      exact .inr (.inl ⟨htwo, (Except.ok.inj h).symm⟩)
    · split at h
      · rename_i hfour
        exact .inr (.inr ⟨hfour, (Except.ok.inj h).symm⟩)
      · cases h

theorem decodeOne_wellFormed (w : Word) : (decodeOne w).WellFormed := by
  simp only [decodeOne, wellFormed_one_iff, field_eq]
  omega

theorem decodeTwo_wellFormed (w : Word) : (decodeTwo w).WellFormed := by
  simp only [decodeTwo, wellFormed_two_iff, field_eq]
  omega

theorem decodeFour_wellFormed (w : Word) : (decodeFour w).WellFormed := by
  simp only [decodeFour, wellFormed_four_iff, field_eq]
  omega

theorem wellFormed_of_decode {w : Word} {i : Instr} (h : decode w = .ok i) : i.WellFormed := by
  obtain ⟨-, rfl⟩ | ⟨-, rfl⟩ | ⟨-, rfl⟩ := decode_eq_ok_cases h
  · exact decodeOne_wellFormed w
  · exact decodeTwo_wellFormed w
  · exact decodeFour_wellFormed w

theorem m_lt_and_index_lt_of_wellFormed {i : Instr} (h : i.WellFormed) : i.m < 16 ∧ i.index < 8 := by
  cases i with
  | fmlalZaZzi1 v offs n m index =>
    obtain ⟨_, _, _, hbounds⟩ := (wellFormed_one_iff v offs n m index).1 h
    exact hbounds
  | fmlalZaZzi2xi v offs n m index =>
    obtain ⟨_, _, _, _, hbounds⟩ := (wellFormed_two_iff v offs n m index).1 h
    exact hbounds
  | fmlalZaZzi4xi v offs n m index =>
    obtain ⟨_, _, _, _, hbounds⟩ := (wellFormed_four_iff v offs n m index).1 h
    exact hbounds

theorem decode_v_number {w : Word} {i : Instr} (h : decode w = .ok i) : i.v.number = 8 + w.toNat / 2 ^ 13 % 4 := by
  obtain ⟨-, rfl⟩ | ⟨-, rfl⟩ | ⟨-, rfl⟩ := decode_eq_ok_cases h <;> exact decodeVSel_number w

theorem decode_m {w : Word} {i : Instr} (h : decode w = .ok i) : i.m = w.toNat / 2 ^ 16 % 16 := by
  obtain ⟨-, rfl⟩ | ⟨-, rfl⟩ | ⟨-, rfl⟩ := decode_eq_ok_cases h <;> exact field_eq w 16 4

/-- Settles O2: each format reads `Rv` and `Zm` at one place and has its own `index`; the ranges are those of a
well-formed instruction. -/
theorem operandNumbersAreUnsignedFields : Obligations.OperandNumbersAreUnsignedFields := by
  intro w i h
  obtain ⟨hv8, hv11⟩ := number_range i.v
  obtain ⟨hm, hindex⟩ := m_lt_and_index_lt_of_wellFormed (wellFormed_of_decode h)
  refine ⟨decode_v_number h, hv8, hv11, decode_m h, Nat.le_of_lt_succ hm, ?_, Nat.le_of_lt_succ hindex⟩
  obtain ⟨-, rfl⟩ | ⟨-, rfl⟩ | ⟨-, rfl⟩ := decode_eq_ok_cases h
  · simp only [decodeOne, Instr.form, Instr.index, field_eq, Nat.reducePow]
  · simp only [decodeTwo, Instr.form, Instr.index, field_eq, Nat.reducePow]
  · simp only [decodeFour, Instr.form, Instr.index, field_eq, Nat.reducePow]

/-- Settles O57: `offset` is twice a field of three bits in za_zzi_1 and of two bits in the others. -/
theorem offsetIsTwiceItsField : Obligations.OffsetIsTwiceItsField := by
  intro w i h
  have heven := offs_even_of_wellFormed (wellFormed_of_decode h)
  obtain ⟨-, rfl⟩ | ⟨-, rfl⟩ | ⟨-, rfl⟩ := decode_eq_ok_cases h
  · exact ⟨congrArg (2 * ·) (field_zero_eq w 3), heven, Nat.mul_le_mul_left 2 (Nat.le_of_lt_succ (field_lt w 0 3)),
      rfl, rfl⟩
  · exact ⟨congrArg (2 * ·) (field_zero_eq w 2), heven, Nat.mul_le_mul_left 2 (Nat.le_of_lt_succ (field_lt w 0 2)),
      rfl, rfl⟩
  · exact ⟨congrArg (2 * ·) (field_zero_eq w 2), heven, Nat.mul_le_mul_left 2 (Nat.le_of_lt_succ (field_lt w 0 2)),
      rfl, rfl⟩

/-! ## Encoding inverts decoding (R65, R72) -/

/-- A word of za_zzi_1 is the sum of its fixed bits and its fields (R52). -/
theorem toNat_of_hasFormat_one {w : Word} (h : hasFormat .one w = true) :
    w.toNat = 0xC1801000 + field w 16 4 * 2 ^ 16 + field w 15 1 * 2 ^ 15 + field w 13 2 * 2 ^ 13 +
      field w 10 2 * 2 ^ 10 + field w 5 5 * 2 ^ 5 + field w 0 3 := by
  rw [hasFormat_one_iff] at h
  simp only [field_eq]
  omega

/-- A word of za_zzi_2xi is the sum of its fixed bits and its fields (R53). -/
theorem toNat_of_hasFormat_two {w : Word} (h : hasFormat .two w = true) :
    w.toNat = 0xC1901000 + field w 16 4 * 2 ^ 16 + field w 13 2 * 2 ^ 13 + field w 10 2 * 2 ^ 10 +
      field w 6 4 * 2 ^ 6 + field w 2 1 * 2 ^ 2 + field w 0 2 := by
  rw [hasFormat_two_iff] at h
  simp only [field_eq]
  omega

/-- A word of za_zzi_4xi is the sum of its fixed bits and its fields (R54). -/
theorem toNat_of_hasFormat_four {w : Word} (h : hasFormat .four w = true) :
    w.toNat = 0xC1909000 + field w 16 4 * 2 ^ 16 + field w 13 2 * 2 ^ 13 + field w 10 2 * 2 ^ 10 +
      field w 7 3 * 2 ^ 7 + field w 2 1 * 2 ^ 2 + field w 0 2 := by
  rw [hasFormat_four_iff] at h
  simp only [field_eq]
  omega

theorem encode_decodeOne {w : Word} (h : hasFormat .one w = true) : encode (decodeOne w) = w := by
  apply BitVec.eq_of_toNat_eq
  rw [decodeOne, encode_one_toNat, decodeVSel_number_eq_field, toNat_of_hasFormat_one h]
  have hoff := field_lt w 0 3
  have hn := field_lt w 5 5
  have hm := field_lt w 16 4
  have hi3h := field_lt w 15 1
  have hi3l := field_lt w 10 2
  omega

theorem encode_decodeTwo {w : Word} (h : hasFormat .two w = true) : encode (decodeTwo w) = w := by
  apply BitVec.eq_of_toNat_eq
  rw [decodeTwo, encode_two_toNat, decodeVSel_number_eq_field, toNat_of_hasFormat_two h]
  have hoff := field_lt w 0 2
  have hn := field_lt w 6 4
  have hm := field_lt w 16 4
  have hi3h := field_lt w 10 2
  have hi3l := field_lt w 2 1
  omega

theorem encode_decodeFour {w : Word} (h : hasFormat .four w = true) : encode (decodeFour w) = w := by
  apply BitVec.eq_of_toNat_eq
  rw [decodeFour, encode_four_toNat, decodeVSel_number_eq_field, toNat_of_hasFormat_four h]
  have hoff := field_lt w 0 2
  have hn := field_lt w 7 3
  have hm := field_lt w 16 4
  have hi3h := field_lt w 10 2
  have hi3l := field_lt w 2 1
  omega

theorem encode_of_decode {w : Word} {i : Instr} (h : decode w = .ok i) : encode i = w := by
  obtain ⟨hw, rfl⟩ | ⟨hw, rfl⟩ | ⟨hw, rfl⟩ := decode_eq_ok_cases h
  · exact encode_decodeOne hw
  · exact encode_decodeTwo hw
  · exact encode_decodeFour hw

/-- Settles O5: a word in scope is the sum of its format's fixed bits and the fields it decodes to. -/
theorem encodeInvertsDecode : Obligations.EncodeInvertsDecode := by
  intro w hw
  obtain ⟨-, i, hi⟩ | ⟨hout, -⟩ := decode_cases w
  · exact ⟨i, hi, wellFormed_of_decode hi, encode_of_decode hi⟩
  · simp [hw] at hout

/-! ## The encoder's formulas (R72) -/

/-- Where a number has zero bits, or-ing a field in adds it. -/
theorem or_shiftLeft_eq_add {a k len x : Nat} (ha : a / 2 ^ k % 2 ^ len = 0) (hx : x < 2 ^ len) :
    a ||| x <<< k = a + x * 2 ^ k := by
  have hlow : a % 2 ^ k < 2 ^ k := Nat.mod_lt _ (Nat.two_pow_pos k)
  have hsplit : (a / 2 ^ k) <<< k ||| a % 2 ^ k = a := by
    rw [← Nat.shiftLeft_add_eq_or_of_lt hlow, Nat.shiftLeft_eq, Nat.div_add_mod']
  have hhigh : a / 2 ^ k ||| x = a / 2 ^ k + x := by
    rw [← Nat.mul_div_cancel' (Nat.dvd_of_mod_eq_zero ha), Nat.two_pow_add_eq_or_of_lt hx]
  calc a ||| x <<< k
      = ((a / 2 ^ k) <<< k ||| a % 2 ^ k) ||| x <<< k := by rw [hsplit]
    _ = (a / 2 ^ k ||| x) <<< k ||| a % 2 ^ k := by rw [Nat.or_right_comm, Nat.shiftLeft_or_distrib]
    _ = (a / 2 ^ k + x) <<< k + a % 2 ^ k := by rw [hhigh, Nat.shiftLeft_add_eq_or_of_lt hlow]
    _ = a + x * 2 ^ k := by rw [Nat.shiftLeft_eq, Nat.add_mul, Nat.add_right_comm, Nat.div_add_mod']

/-- One step of a formula: a field of `len` bits at bit `k`, or-ed into a word whose bits there are zero. -/
theorem toNat_or_field {w : Word} {a x : Nat} (k len : Nat) (hw : w.toNat = a) (ha : a / 2 ^ k % 2 ^ len = 0)
    (hx : x < 2 ^ len) (hk : k + len ≤ 32) : (w ||| BitVec.ofNat 32 x <<< k).toNat = a + x * 2 ^ k := by
  have hlt : x * 2 ^ k < 2 ^ 32 := calc
    x * 2 ^ k < 2 ^ len * 2 ^ k := Nat.mul_lt_mul_of_pos_right hx (Nat.two_pow_pos k)
    _ = 2 ^ (k + len) := by rw [Nat.pow_add, Nat.mul_comm]
    _ ≤ 2 ^ 32 := Nat.pow_le_pow_right (by decide) hk
  have hx32 : x < 2 ^ 32 := Nat.lt_of_le_of_lt (Nat.le_mul_of_pos_right x (Nat.two_pow_pos k)) hlt
  rw [BitVec.toNat_or, hw, BitVec.toNat_shiftLeft, BitVec.toNat_ofNat, Nat.mod_eq_of_lt hx32,
    Nat.mod_eq_of_lt (Nat.shiftLeft_eq x k ▸ hlt), or_shiftLeft_eq_add ha hx]

/-- The last step of a formula: the offset field, at bit 0. -/
theorem toNat_or_low_field {w : Word} {a x : Nat} (len : Nat) (hw : w.toNat = a) (ha : a % 2 ^ len = 0)
    (hx : x < 2 ^ len) (hlen : len ≤ 32) : (w ||| BitVec.ofNat 32 x).toNat = a + x := by
  simpa using toNat_or_field 0 len hw (by simpa using ha) hx (by omega)

theorem encode_one_eq_formula {v : VSel} {offs n m index : Nat}
    (h : (Instr.fmlalZaZzi1 v offs n m index).WellFormed) :
    encode (.fmlalZaZzi1 v offs n m index) =
      0xC1801000#32 ||| (BitVec.ofNat 32 m <<< 16) ||| (BitVec.ofNat 32 (index / 4) <<< 15) |||
        (BitVec.ofNat 32 (v.number - 8) <<< 13) ||| (BitVec.ofNat 32 (index % 4) <<< 10) |||
        (BitVec.ofNat 32 n <<< 5) ||| BitVec.ofNat 32 (offs / 2) := by
  rw [wellFormed_one_iff] at h
  have hv := number_range v
  have hm := toNat_or_field (w := 0xC1801000#32) (a := 0xC1801000) (x := m) 16 4 rfl (by omega) (by omega) (by omega)
  have hi3h := toNat_or_field (x := index / 4) 15 1 hm (by omega) (by omega) (by omega)
  have hrv := toNat_or_field (x := v.number - 8) 13 2 hi3h (by omega) (by omega) (by omega)
  have hi3l := toNat_or_field (x := index % 4) 10 2 hrv (by omega) (by omega) (by omega)
  have hn := toNat_or_field (x := n) 5 5 hi3l (by omega) (by omega) (by omega)
  have hoff := toNat_or_low_field (x := offs / 2) 3 hn (by omega) (by omega) (by omega)
  apply BitVec.eq_of_toNat_eq
  rw [encode_one_toNat, hoff]
  simp (disch := omega) only [Nat.mod_eq_of_lt]

theorem encode_two_eq_formula {v : VSel} {offs n m index : Nat}
    (h : (Instr.fmlalZaZzi2xi v offs n m index).WellFormed) :
    encode (.fmlalZaZzi2xi v offs n m index) =
      0xC1901000#32 ||| (BitVec.ofNat 32 m <<< 16) ||| (BitVec.ofNat 32 (v.number - 8) <<< 13) |||
        (BitVec.ofNat 32 (index / 2) <<< 10) ||| (BitVec.ofNat 32 (n / 2) <<< 6) |||
        (BitVec.ofNat 32 (index % 2) <<< 2) ||| BitVec.ofNat 32 (offs / 2) := by
  rw [wellFormed_two_iff] at h
  have hv := number_range v
  have hm := toNat_or_field (w := 0xC1901000#32) (a := 0xC1901000) (x := m) 16 4 rfl (by omega) (by omega) (by omega)
  have hrv := toNat_or_field (x := v.number - 8) 13 2 hm (by omega) (by omega) (by omega)
  have hi3h := toNat_or_field (x := index / 2) 10 2 hrv (by omega) (by omega) (by omega)
  have hn := toNat_or_field (x := n / 2) 6 4 hi3h (by omega) (by omega) (by omega)
  have hi3l := toNat_or_field (x := index % 2) 2 1 hn (by omega) (by omega) (by omega)
  have hoff := toNat_or_low_field (x := offs / 2) 2 hi3l (by omega) (by omega) (by omega)
  apply BitVec.eq_of_toNat_eq
  rw [encode_two_toNat, hoff]
  simp (disch := omega) only [Nat.mod_eq_of_lt]

theorem encode_four_eq_formula {v : VSel} {offs n m index : Nat}
    (h : (Instr.fmlalZaZzi4xi v offs n m index).WellFormed) :
    encode (.fmlalZaZzi4xi v offs n m index) =
      0xC1909000#32 ||| (BitVec.ofNat 32 m <<< 16) ||| (BitVec.ofNat 32 (v.number - 8) <<< 13) |||
        (BitVec.ofNat 32 (index / 2) <<< 10) ||| (BitVec.ofNat 32 (n / 4) <<< 7) |||
        (BitVec.ofNat 32 (index % 2) <<< 2) ||| BitVec.ofNat 32 (offs / 2) := by
  rw [wellFormed_four_iff] at h
  have hv := number_range v
  have hm := toNat_or_field (w := 0xC1909000#32) (a := 0xC1909000) (x := m) 16 4 rfl (by omega) (by omega) (by omega)
  have hrv := toNat_or_field (x := v.number - 8) 13 2 hm (by omega) (by omega) (by omega)
  have hi3h := toNat_or_field (x := index / 2) 10 2 hrv (by omega) (by omega) (by omega)
  have hn := toNat_or_field (x := n / 4) 7 3 hi3h (by omega) (by omega) (by omega)
  have hi3l := toNat_or_field (x := index % 2) 2 1 hn (by omega) (by omega) (by omega)
  have hoff := toNat_or_low_field (x := offs / 2) 2 hi3l (by omega) (by omega) (by omega)
  apply BitVec.eq_of_toNat_eq
  rw [encode_four_toNat, hoff]
  simp (disch := omega) only [Nat.mod_eq_of_lt]

/-- Settles O6: encoder and formula are the same sum of fields, for the formula's fields do not overlap. -/
theorem encodeFollowsFormulas : Obligations.EncodeFollowsFormulas :=
  fun _ _ _ _ _ => ⟨encode_one_eq_formula, encode_two_eq_formula, encode_four_eq_formula⟩

/-! ## Worked words, and words of no format (R64, R83 to R85) -/

/-- Settles O7: six closed facts of the decoder. -/
theorem workedWordsDecode : Obligations.WorkedWordsDecode :=
  ⟨rfl, rfl, rfl, rfl, rfl, rfl⟩

theorem decode_of_not_inScope {w : Word} (h : inScope w = false) : decode w = .error (.notInScope w) := by
  obtain ⟨hin, -⟩ | ⟨-, hw⟩ := decode_cases w
  · simp [h] at hin
  · exact hw

theorem step_of_decode_error {s : State} {w : Word} {e : Reject} (hw : fetch s = .word w) (he : decode w = .error e) :
    step s = .refused (.notInScope w) := by
  simp [step, hw, he]

/-- Settles O13: decoding has no fourth format to offer, and a step refuses what decoding rejects. -/
theorem otherWordsAreRefused : Obligations.OtherWordsAreRefused :=
  fun _ hout => ⟨decode_of_not_inScope hout, fun _ hw => step_of_decode_error hw (decode_of_not_inScope hout)⟩

end Sys2Proof
end

section
/-!
Assembler lines (30_encoding.md R66 to R72): a line stands for an instruction exactly when it is, but for the vector
group symbol, the disassembly of a well-formed one.
-/

namespace Sys2Proof.Machine

theorem vselOfNumber_number (v : VSel) : vselOfNumber v.number = some v := by cases v <;> rfl

theorem number_of_vselOfNumber {wv : Nat} {v : VSel} (h : vselOfNumber wv = some v) : v.number = wv := by
  unfold vselOfNumber at h
  split at h <;> cases h <;> rfl

theorem legalInstr_eq_some_iff (i j : Instr) : legalInstr i = some j ↔ i.WellFormed ∧ i = j := by
  rw [legalInstr, Option.ite_none_right_eq_some, Option.some.injEq]

/-- The line a disassembler prints stands for the instruction (R69). -/
theorem instr_disassemble {i : Instr} (h : i.WellFormed) : (disassemble i).instr = some i := by
  cases i <;> simpa [disassemble, AsmLine.instr, vselOfNumber_number, legalInstr_eq_some_iff] using h

/-- Settles O8: the printed line stands for the instruction, whose word it then has. -/
theorem disassembledLineAssembles : Obligations.DisassembledLineAssembles := by
  intro i hwf
  rw [AsmLine.assemble, instr_disassemble hwf, Option.map_some]

/-- A line stands only for a well-formed instruction, of which it is the disassembly but for the vector group symbol. -/
theorem disassemble_of_instr {l : AsmLine} {i : Instr} (h : l.instr = some i) :
    i.WellFormed ∧ disassemble i = l.preferred := by
  cases l <;> simp only [AsmLine.instr, Option.ite_none_right_eq_some, Option.bind_eq_some_iff,
    legalInstr_eq_some_iff] at h
  case one =>
    obtain ⟨rfl, v, hv, hwf, rfl⟩ := h
    obtain rfl := number_of_vselOfNumber hv
    exact ⟨hwf, rfl⟩
  case two =>
    obtain ⟨⟨rfl, rfl⟩, v, hv, hwf, rfl⟩ := h
    obtain rfl := number_of_vselOfNumber hv
    exact ⟨hwf, rfl⟩
  case four =>
    obtain ⟨⟨rfl, rfl⟩, v, hv, hwf, rfl⟩ := h
    obtain rfl := number_of_vselOfNumber hv
    exact ⟨hwf, rfl⟩

/-- Settles O9: the word is that of the instruction the line stands for, and decodes to it. -/
theorem assembledLinesAreLegal : Obligations.AssembledLinesAreLegal := by
  intro l w h
  obtain ⟨i, hi, rfl⟩ := Option.map_eq_some_iff.1 h
  obtain ⟨hwf, hline⟩ := disassemble_of_instr hi
  exact ⟨i, decode_encode hwf, hline⟩

theorem instr_preferred (l : AsmLine) : l.preferred.instr = l.instr := by cases l <;> rfl

/-- Settles O10: the symbol is no part of the instruction a line stands for. -/
theorem vectorGroupSymbolIsOptional : Obligations.VectorGroupSymbolIsOptional := by
  intro l
  rw [AsmLine.assemble, instr_preferred, AsmLine.assemble]

end Sys2Proof.Machine
end

section
/-!
The ZA vector selection (40_fmlal_za_indexed.md R81, R86 to R88): its arithmetic, its shortcut in wrapping arithmetic,
the range of every number formed, and that the order of the passes over the selected vectors is not observable.
-/

namespace Sys2Proof.Machine

/-! ## The selected numbers (R81, R86) -/

theorem vecFirst_add_bit (n nreg : Nat) (wv : Word) (offs : Nat) :
    vecFirst n nreg wv offs + vecReduced n nreg wv offs % 2 = vecReduced n nreg wv offs :=
  Nat.sub_add_cancel (Nat.mod_le _ 2)

/-- Settles O26: the first clauses are R81's definitions; for an even offset the closed form shows that bits 31:1 of the
select value decide `vec0`. -/
theorem vectorSelectionArithmetic : Obligations.VectorSelectionArithmetic := by
  refine ⟨fun len f wv offs => ⟨rfl, rfl, vecReduced_lt len f wv offs, vecFirst_add_bit _ _ wv offs, fun ho =>
    ⟨vecFirst_eq_two_mul len f wv ho, fun wv' h => ?_⟩⟩, by decide⟩
  rw [vecFirst_eq_two_mul len f wv' ho, vecFirst_eq_two_mul len f wv ho, h]

/-- For the architectural lengths `vstride` is a power of two, at most `2^8`. -/
theorem vstride_dvd_of_isArchitectural {len : VectorLength} (h : len.isArchitectural = true) (f : Form) :
    vstride len.bits f.nreg ∣ 2 ^ 32 := by
  simp only [VectorLength.isArchitectural, Bool.or_eq_true, beq_iff_eq] at h
  obtain (((hlen | hlen) | hlen) | hlen) | hlen := h <;> rw [hlen] <;> cases f <;> decide

/-- A modulus that divides `2^32` does not see the sum wrap. -/
theorem wrapped_sum_mod {d : Nat} (h : d ∣ 2 ^ 32) (wv : Word) (offs : Nat) :
    (wv + BitVec.ofNat 32 offs).toNat % d = (wv.toNat + offs) % d := by
  rw [BitVec.toNat_add, BitVec.toNat_ofNat, Nat.add_mod_mod, Nat.mod_mod_of_dvd _ h]

/-- Settles O27: `vstride` divides `2^32` for the architectural lengths. For `SVL = 384` it is 48: the sum
`2^32` wraps to 0, and leaves 16 modulo 48. -/
theorem wrappingSelectShortcut : Obligations.WrappingSelectShortcut :=
  ⟨fun _ f wv offs h => wrapped_sum_mod (vstride_dvd_of_isArchitectural h f) wv offs, 0xFFFFFFFE#32, by decide⟩

/-! ## Ranges (R88) -/

theorem n_add_lt_of_wellFormed {i : Instr} (h : i.WellFormed) {r : Nat} (hr : r < i.nreg) : i.n + r < 32 := by
  cases i with
  | fmlalZaZzi1 v offs n m index =>
    rw [wellFormed_one_iff] at h
    change r < 1 at hr
    change n + r < 32
    omega
  | fmlalZaZzi2xi v offs n m index =>
    rw [wellFormed_two_iff] at h
    change r < 2 at hr
    change n + r < 32
    omega
  | fmlalZaZzi4xi v offs n m index =>
    rw [wellFormed_four_iff] at h
    change r < 4 at hr
    change n + r < 32
    omega

/-- Every selected vector lies in the array. -/
theorem vecIndex_lt (len : VectorLength) (f : Form) (wv : Word) (offs : Nat) {r h : Nat} (hr : r < f.nreg)
    (hh : h < 2) : vecIndex len.bits f.nreg wv offs r h < len.bits / 8 :=
  Nat.lt_of_lt_of_le (vecIndex_in_block len f wv offs r h hh).2 (block_le_array len f r hr)

/-- The first factor of an element lies in its register. -/
theorem firstFactor_lt {len e h : Nat} (he : e < len / 32) (hh : h < 2) : 2 * e + h < len / 16 := by
  omega

/-- The second factor of an element lies in its register, which 128-bit segments tile. -/
theorem segmentElement_lt (len : VectorLength) {e index : Nat} (he : e < len.bits / 32) (hindex : index < 8) :
    8 * (e / 4) + index < len.bits / 16 := by
  have hlegal := len.legal
  omega

/-- Settles O29: each range is that of one lemma, less one. -/
theorem everyNumberIsInRange : Obligations.EveryNumberIsInRange := by
  intro len i wv hwf
  obtain ⟨hm, hindex⟩ := m_lt_and_index_lt_of_wellFormed hwf
  obtain ⟨hv8, hv11⟩ := number_range i.v
  refine ⟨Nat.le_of_lt_succ hm, hv8, hv11, nreg_mul_vstride len i.form, fun r hr =>
    ⟨Nat.le_of_lt_succ (n_add_lt_of_wellFormed hwf hr), fun h hh =>
      Nat.le_sub_one_of_lt (vecIndex_lt len i.form wv i.offs hr hh)⟩, fun e he =>
    ⟨fun h hh => Nat.le_sub_one_of_lt (firstFactor_lt he hh), segmentElement_eq e i.index, ?_⟩⟩
  rw [segmentElement_eq]
  exact Nat.le_sub_one_of_lt (segmentElement_lt len he hindex)

/-! ## The order of the passes (R87) -/

/-- Writes at distinct places inside the array, each computed from what its own place holds, may be made in any order. -/
theorem foldl_zaWrite_perm {n : Nat} {ι : Type} (idx : ι → Nat) (g : ι → BitVec n → BitVec n) {l l' : List ι}
    (hperm : l.Perm l') (hd : (l'.map idx).Nodup) (za : ZaArray n) :
    l.foldl (fun za p => zaWrite za (idx p) (g p (zaRead za (idx p)))) za =
      l'.foldl (fun za p => zaWrite za (idx p) (g p (zaRead za (idx p)))) za := by
  apply za_ext
  intro k hk
  by_cases hex : ∃ p ∈ l', idx p = k
  · obtain ⟨p, hp, rfl⟩ := hex
    rw [zaRead_foldl_mem idx g l za ((hperm.map idx).nodup_iff.2 hd) p (hperm.mem_iff.2 hp) hk,
      zaRead_foldl_mem idx g l' za hd p hp hk]
  · have hother : ∀ p ∈ l', idx p ≠ k := fun p hp heq => hex ⟨p, hp, heq⟩
    rw [zaRead_foldl_other idx g l za k fun p hp => hother p (hperm.mem_iff.1 hp),
      zaRead_foldl_other idx g l' za k hother]

/-- Settles O28: the passes write at distinct places, and each reads of the ZA array the place it writes only. -/
theorem loopOrderIsNotObservable : Obligations.LoopOrderIsNotObservable := by
  refine ⟨fun len f wv offs => ⟨vecFirst_even _ _ wv offs, Nat.le_sub_of_add_le (vecFirst_add_two_le len f wv offs),
    fun r i r' i' _ hi _ hi' => vecIndex_inj len f wv offs r i r' i' hi hi'⟩,
    fun s f v offs n m index order hperm => ?_⟩
  rw [fmlalZa_eq_foldl]
  exact foldl_zaWrite_perm (fun p : Nat × Nat => vecIndex s.currentVL f.nreg (s.wReg v) offs p.1 p.2)
    (fun p => fmlalVector (fun a x y => fpMulAddHZa s.cfg a x y s.fpcr) p.2 index (s.zReg (n + p.1)) (s.zReg m))
    hperm (loopPairs_vecIndex_nodup s.cfg.svl f (s.wReg v) offs) s.za

end Sys2Proof.Machine
end

section
/-!
The operation of FMLAL (40_fmlal_za_indexed.md R82 to R85, R89, R91): the elements an executed instruction leaves in the
ZA array, for each of the three forms; where one element of a source reaches; and what executing twice does.
-/

namespace Sys2Proof.Machine

/-! ## The elements of the new ZA array (R82 to R85) -/

/-- One element of a selected ZA vector after the operation, from the state before it (R82). -/
theorem elem_fmlalZa_selected (f : Form) (v : VSel) (offs n m index : Nat) (s : State) {r h e : Nat} (hr : r < f.nreg)
    (hh : h < 2) (he : e < s.cfg.svl.bits / 32) :
    elem (zaRead (fmlalZa f.nreg v offs n m index s) (vecIndex s.cfg.svl.bits f.nreg (s.wReg v) offs r h)) e 32 =
      fpMulAddHZa s.cfg (elem (zaRead s.za (vecIndex s.cfg.svl.bits f.nreg (s.wReg v) offs r h)) e 32)
        (elem (s.zReg (n + r)) (2 * e + h) 16) (elem (s.zReg m) (8 * (e / 4) + index) 16) s.fpcr := by
  rw [← segmentElement_eq]
  exact (congrArg (elem · e 32) (zaRead_fmlalZa_selected f v offs n m index s r h hr hh)).trans
    (elem_fmlalVector _ h index _ _ _ e he)

/-- What an executed instruction of any form does, with the distance `b` between its ZA double-vectors (R81, R82). -/
theorem exec_result_of_vstride {i : Instr} {s : State} (hwf : i.WellFormed) (he : s.enabled = true)
    (ha : s.afpPlain = true) {b : Nat} (hb : vstride s.cfg.svl.bits i.nreg = b) :
    ∃ za' : ZaArray s.cfg.svl.bits,
      exec i s = .next { s with za := za', pc := s.pc + 4#64 } ∧
      let t := ((s.wReg i.v).toNat + i.offs) % b
      let vec0 := t - t % 2
      (∀ r < i.nreg, ∀ h < 2, ∀ e < s.cfg.svl.bits / 32,
        elem (zaRead za' (vec0 + r * b + h)) e 32 =
          fpMulAddHZa s.cfg (elem (zaRead s.za (vec0 + r * b + h)) e 32) (elem (s.zReg (i.n + r)) (2 * e + h) 16)
            (elem (s.zReg i.m) (8 * (e / 4) + i.index) 16) s.fpcr) ∧
      (∀ k < s.cfg.svl.bits / 8, (∀ r < i.nreg, ∀ h < 2, k ≠ vec0 + r * b + h) → zaRead za' k = zaRead s.za k) := by
  subst hb
  exact ⟨fmlalZa i.nreg i.v i.offs i.n i.m i.index s, exec_completes hwf he ha,
    fun r hr h hh e => elem_fmlalZa_selected i.form i.v i.offs i.n i.m i.index s hr hh,
    fun k _ hk => zaRead_fmlalZa_other i.nreg i.v i.offs i.n i.m i.index s k fun r hr h hh => (hk r hr h hh).symm⟩

/-- Settles O22: the elements of the selected vectors, at the distance R81 gives. -/
theorem elementCorrespondence : Obligations.ElementCorrespondence := by
  intro i s hwf he ha
  obtain ⟨za', hexec, hselected, -⟩ := exec_result_of_vstride hwf he ha rfl
  exact ⟨za', hexec, hselected⟩

/-- Settles O23: the one double-vector is that of `r = 0`, taken modulo `SVL/8`. -/
theorem oneVectorFormResult : Obligations.OneVectorFormResult := by
  intro s v offs n m index heven hoffs hn hm hindex he ha
  obtain ⟨za', hexec, hselected, hother⟩ := exec_result_of_vstride (b := s.cfg.svl.bits / 8)
    ((wellFormed_one_iff v offs n m index).2 ⟨heven, hoffs, hn, hm, hindex⟩) he ha (Nat.div_one _)
  refine ⟨za', hexec, fun i hi e hlt => ?_, fun k hk hk0 hk1 => hother k hk fun r hr h hh => ?_⟩
  · simpa only [Nat.zero_mul, Nat.add_zero, Instr.v, Instr.offs, Instr.n, Instr.m, Instr.index] using
      hselected 0 Nat.one_pos i hi e hlt
  · obtain rfl : r = 0 := Nat.lt_one_iff.1 hr
    obtain rfl | rfl : h = 0 ∨ h = 1 := by omega
    · simpa only [Nat.zero_mul, Nat.add_zero, Instr.v, Instr.offs] using hk0
    · simpa only [Nat.zero_mul, Nat.add_zero, Instr.v, Instr.offs] using hk1

/-- Settles O24: the double-vectors are `SVL/8/2 = SVL/16` apart. -/
theorem twoVectorFormResult : Obligations.TwoVectorFormResult :=
  fun _ v offs n m index heven hoffs hpair hn hm hindex he ha =>
    exec_result_of_vstride ((wellFormed_two_iff v offs n m index).2 ⟨heven, hoffs, hpair, hn, hm, hindex⟩) he ha
      (Nat.div_div_eq_div_mul _ 8 2)

/-- Settles O25: the double-vectors are `SVL/8/4 = SVL/32` apart. -/
theorem fourVectorFormResult : Obligations.FourVectorFormResult :=
  fun _ v offs n m index heven hoffs hquad hn hm hindex he ha =>
    exec_result_of_vstride ((wellFormed_four_iff v offs n m index).2 ⟨heven, hoffs, hquad, hn, hm, hindex⟩) he ha
      (Nat.div_div_eq_div_mul _ 8 4)

/-! ## Where one element of a source reaches (R91) -/

/-- A vector has half as many single-precision elements as half-precision ones. -/
theorem half_lt (len : VectorLength) {j : Nat} (hj : j < len.bits / 16) : j / 2 < len.bits / 32 := by
  have hlegal := len.legal
  omega

/-- Each first-source element is the first factor of one element of one half. -/
theorem existsUnique_firstFactor (len : VectorLength) {j : Nat} (hj : j < len.bits / 16) :
    ∃! p : Nat × Nat, p.1 < len.bits / 32 ∧ p.2 < 2 ∧ 2 * p.1 + p.2 = j := by
  refine ⟨(j / 2, j % 2), ⟨half_lt len hj, Nat.mod_lt j Nat.two_pos, Nat.div_add_mod j 2⟩, ?_⟩
  rintro ⟨e, h⟩ ⟨he, hh, heq⟩
  simp only at he hh heq
  exact Prod.ext (by simp only; omega) (by simp only; omega)

/-- Of the indexed source, the elements used are those at position `index` of a segment. -/
theorem exists_segmentElement_iff (len : VectorLength) (index j : Nat) :
    (∃ e < len.bits / 32, segmentElement e index = j) ↔ ∃ g < len.bits / 128, j = 8 * g + index := by
  have hlegal := len.legal
  constructor
  · rintro ⟨e, he, rfl⟩
    exact ⟨e / 4, by omega, segmentElement_eq e index⟩
  · rintro ⟨g, hg, rfl⟩
    refine ⟨4 * g, by omega, ?_⟩
    rw [segmentElement_eq, Nat.mul_div_cancel_left g (by decide)]

/-- The two `Z` files of a state and of one beside it agree at every element but element `j` of `Z(p)`. -/
def AgreeBut (s : State) (z' : ZFile s.cfg.svl.bits) (p j : Nat) : Prop :=
  ∀ p' < 32, ∀ q < s.cfg.svl.bits / 16, p' ≠ p ∨ q ≠ j → elem (z'[p']?.getD 0#_) q 16 = elem (s.zReg p') q 16

/-- An element of which neither factor is the one on which the `Z` files differ becomes the same. -/
theorem elem_fmlalZa_of_agreeBut {i : Instr} (hwf : i.WellFormed) {s : State} {z' : ZFile s.cfg.svl.bits} {p j : Nat}
    (hz : AgreeBut s z' p j) {r h e : Nat} (hr : r < i.nreg) (hh : h < 2) (he : e < s.cfg.svl.bits / 32)
    (hfirst : ¬(p = i.n + r ∧ h = j % 2 ∧ e = j / 2)) (hsecond : ¬(p = i.m ∧ j = 8 * (e / 4) + i.index)) :
    elem (zaRead (fmlalZa i.nreg i.v i.offs i.n i.m i.index { s with z := z' })
        (vecIndex s.cfg.svl.bits i.nreg (s.wReg i.v) i.offs r h)) e 32 =
      elem (zaRead (fmlalZa i.nreg i.v i.offs i.n i.m i.index s)
        (vecIndex s.cfg.svl.bits i.nreg (s.wReg i.v) i.offs r h)) e 32 := by
  obtain ⟨hm, hindex⟩ := m_lt_and_index_lt_of_wellFormed hwf
  have h1 : elem (z'[i.n + r]?.getD 0#_) (2 * e + h) 16 = elem (s.zReg (i.n + r)) (2 * e + h) 16 :=
    hz (i.n + r) (n_add_lt_of_wellFormed hwf hr) (2 * e + h) (firstFactor_lt he hh) (by omega)
  have h2 : elem (z'[i.m]?.getD 0#_) (8 * (e / 4) + i.index) 16 = elem (s.zReg i.m) (8 * (e / 4) + i.index) 16 :=
    hz i.m (by omega) (8 * (e / 4) + i.index) (segmentElement_lt s.cfg.svl he hindex) (by omega)
  rw [elem_fmlalZa_selected i.form i.v i.offs i.n i.m i.index s hr hh he, ← h1, ← h2]
  exact elem_fmlalZa_selected i.form i.v i.offs i.n i.m i.index { s with z := z' } hr hh he

/-- A ZA vector that is not selected does not depend on the `Z` file. -/
theorem zaRead_fmlalZa_other_z (i : Instr) (s : State) (z' : ZFile s.cfg.svl.bits) {a : Nat}
    (hother : ∀ r < i.nreg, ∀ h < 2, a ≠ vecIndex s.cfg.svl.bits i.nreg (s.wReg i.v) i.offs r h) :
    zaRead (fmlalZa i.nreg i.v i.offs i.n i.m i.index { s with z := z' }) a =
      zaRead (fmlalZa i.nreg i.v i.offs i.n i.m i.index s) a := by
  rw [zaRead_fmlalZa_other _ _ _ _ _ _ s a fun r hr h hh => (hother r hr h hh).symm]
  exact zaRead_fmlalZa_other _ _ _ _ _ _ { s with z := z' } a fun r hr h hh => (hother r hr h hh).symm

/-- An element that is no factor of any element reaches nothing. -/
theorem fmlalZa_of_agreeBut {i : Instr} (hwf : i.WellFormed) {s : State} {z' : ZFile s.cfg.svl.bits} {p j : Nat}
    (hz : AgreeBut s z' p j) (hfirst : ∀ r < i.nreg, p ≠ i.n + r) (hsecond : p ≠ i.m ∨ j % 8 ≠ i.index) :
    fmlalZa i.nreg i.v i.offs i.n i.m i.index { s with z := z' } =
      fmlalZa i.nreg i.v i.offs i.n i.m i.index s := by
  obtain ⟨-, hindex⟩ := m_lt_and_index_lt_of_wellFormed hwf
  have hslices : s.cfg.svl.bits % 32 = 0 := by
    have hlegal := s.cfg.svl.legal
    omega
  apply za_ext
  intro a _
  by_cases hsel : ∃ r < i.nreg, ∃ h < 2, a = vecIndex s.cfg.svl.bits i.nreg (s.wReg i.v) i.offs r h
  · obtain ⟨r, hr, h, hh, rfl⟩ := hsel
    refine eq_of_elem_eq (w := 32) (by decide) hslices _ _ fun e he => ?_
    exact elem_fmlalZa_of_agreeBut hwf hz hr hh he (fun hc => hfirst r hr hc.1) (by omega)
  · exact zaRead_fmlalZa_other_z i s z' fun r hr h hh heq => hsel ⟨r, hr, h, hh, heq⟩

/-- Settles O30: both states execute; an element of a selected vector depends on the `Z` file through its two factors
only, and the first factor of element `j / 2` of half `j mod 2` is element `j`. -/
theorem everyFirstFactorIsUsedOnce : Obligations.EveryFirstFactorIsUsedOnce := by
  refine ⟨fun len index _ => ⟨fun j => existsUnique_firstFactor len, exists_segmentElement_iff len index⟩, ?_⟩
  intro i s z' p j s' k hwf he he' ha _ hj hz
  refine ⟨fmlalZa i.nreg i.v i.offs i.n i.m i.index s, fmlalZa i.nreg i.v i.offs i.n i.m i.index s',
    exec_completes hwf he ha, exec_completes (s := s') hwf he' ha, ?_,
    fun r hr h hh e hlt => elem_fmlalZa_of_agreeBut hwf hz hr hh hlt,
    fun a _ => zaRead_fmlalZa_other_z i s z', fmlalZa_of_agreeBut hwf hz⟩
  rintro r hr rfl
  have hnew := elem_fmlalZa_selected i.form i.v i.offs i.n i.m i.index s' (h := j % 2) (e := j / 2) hr
    (Nat.mod_lt j Nat.two_pos) (half_lt s.cfg.svl hj)
  rwa [Nat.div_add_mod, ← segmentElement_eq] at hnew

/-! ## Executing twice (R89, R154) -/

theorem accessTrapped_of_constant {s : State} (hc : AccessConstant s) :
    s.accessTrapped = (s.cfg.access == .trapped) := by
  unfold State.accessTrapped
  cases haccess : s.cfg.access with
  | untrapped => rfl
  | trapped => rfl
  | byState => exact absurd haccess hc

/-- An executed instruction leaves the next one enabled. -/
theorem enabled_fmlalNext {s : State} (hc : AccessConstant s) (nreg : Nat) (v : VSel) (offs n m index : Nat) :
    (fmlalNext nreg v offs n m index s).enabled = s.enabled := by
  have hc' : AccessConstant (fmlalNext nreg v offs n m index s) := hc
  simp only [State.enabled, accessTrapped_of_constant hc, accessTrapped_of_constant hc', fmlalNext_cfg, fmlalNext_pstate]

/-- Settles O32: the first execution keeps the select register, the sources and FPCR, so the second selects the same
vectors and combines the same factors with the elements the first one left. -/
theorem executingTwiceAccumulatesTwice : Obligations.ExecutingTwiceAccumulatesTwice := by
  intro i s hwf he ha hc
  let s1 := fmlalNext i.nreg i.v i.offs i.n i.m i.index s
  have he1 : s1.enabled = true := (enabled_fmlalNext hc ..).trans he
  have hexec : exec i s1 = .next (fmlalNext i.nreg i.v i.offs i.n i.m i.index s1) := exec_completes hwf he1 ha
  have hpc : s1.pc + 4#64 = s.pc + 8#64 := BitVec.add_assoc s.pc 4#64 4#64
  refine ⟨s1.za, fmlalZa i.nreg i.v i.offs i.n i.m i.index s1, exec_completes hwf he ha, ?_, fun r hr h hh e hlt => ?_⟩
  · rw [← hpc]
    exact hexec
  · have hfirst := elem_fmlalZa_selected i.form i.v i.offs i.n i.m i.index s hr hh hlt
    have hsecond := elem_fmlalZa_selected i.form i.v i.offs i.n i.m i.index s1 hr hh hlt
    rw [fmlalNext_wReg] at hsecond
    exact hsecond.trans (congrArg (fpMulAddHZa s.cfg · _ _ s.fpcr) hfirst)

end Sys2Proof.Machine
end
section
/-!
The refusals of `exec` (00_scope.md R12, 41_fp_numerics.md R116), and the function an instruction calls (R100, R118).
-/

namespace Sys2Proof.Machine

theorem altFpRefused_iff (cfg : Config) (c : Word) :
    altFpRefused cfg c = true ↔
      cfg.numerics = .reference ∧ cfg.featAfp = true ∧ (c.getLsbD 1 = true ∨ c.getLsbD 0 = true) := by
  simp [altFpRefused, altFpLeftOpen, fpcrAh, fpcrFiz]

/-- Everything `fmlal` can refuse: a term no word encodes, or an instruction that would execute. -/
theorem fmlal_refused_iff (i : Instr) (s : State) (q : Refusal) :
    fmlal i s = .refused q ↔
      (q = .illFormed ∧ ¬ i.WellFormed) ∨
      (q = .altFpNotSpecified ∧ i.WellFormed ∧ executionFault (encode i) s = none ∧
        altFpRefused s.cfg s.fpcr = true) := by
  unfold fmlal Instr.WellFormed
  by_cases hwf : i.wellFormed = true
  · cases hf : executionFault (encode i) s with
    | some f => simp [hwf, raise]
    | none => cases ha : altFpRefused s.cfg s.fpcr <;> simp [hwf, eq_comm (a := q)]
  · simp [hwf, eq_comm (a := q)]

/-- Settles O20: the refusals of the shared operation, with the absence of a fault read as the premises of
70_reset_and_hazards.md R151. -/
theorem refusalsOfExecAreExactlyTwo : Obligations.RefusalsOfExecAreExactlyTwo := by
  intro i s q
  rw [exec_eq_fmlal, fmlal_refused_iff, executionFault_eq_none_iff_enabled, altFpRefused_iff]

theorem altFpLeftOpen_eq_false {cfg : Config} {c : Word}
    (h : cfg.featAfp = false ∨ (c.getLsbD 1 = false ∧ c.getLsbD 0 = false)) : altFpLeftOpen cfg c = false := by
  unfold altFpLeftOpen fpcrAh fpcrFiz
  rcases h with hafp | ⟨hah, hfiz⟩
  · rw [hafp, Bool.false_and]
  · rw [hah, hfiz, Bool.or_self, Bool.and_false]

/-- Settles O42: the configuration enters through `numerics` and `featAfp` only, and where R116 leaves nothing open both
choices with a reference definition give it. -/
theorem fpFunctionFollowsConfiguration : Obligations.FpFunctionFollowsConfiguration := by
  refine ⟨fun cfg cfg' a x y c hnum hafp => ?_, fun cfg a x y c hnum h => ?_⟩
  · rw [fpMulAddHZa, fpMulAddHZa, altFpLeftOpen, altFpLeftOpen, hnum, hafp]
  · have hopen := altFpLeftOpen_eq_false h
    cases hcase : cfg.numerics with
    | reference => simp [fpMulAddHZa, hcase]
    | referenceOrFree => simp [fpMulAddHZa, hcase, hopen]
    | configured => exact absurd hcase hnum

end Sys2Proof.Machine
end

section
/-!
The fields of an element, the values of the table of formats as whole numbers of the smallest unit (`2^-24` for a
half-precision element, `2^-149` for a single-precision one), and the unpacked operands (41_fp_numerics.md R101, R105,
R106).
-/

namespace Sys2Proof.Machine

/-! ## The fields of an element (R101) -/

theorem halfFrac_lt (h : Half) : halfFrac h < 2 ^ 10 := (h.extractLsb' 0 10).isLt
theorem halfExp_lt (h : Half) : halfExp h < 2 ^ 5 := (h.extractLsb' 10 5).isLt
theorem singleFrac_lt (a : Single) : singleFrac a < 2 ^ 23 := (a.extractLsb' 0 23).isLt
theorem singleExp_lt (a : Single) : singleExp a < 2 ^ 8 := (a.extractLsb' 23 8).isLt

theorem singleSign_eq (a : Single) : singleSign a = decide (2 ^ 31 ≤ a.toNat) :=
  BitVec.msb_eq_decide a

theorem singleExp_eq (a : Single) : singleExp a = a.toNat / 2 ^ 23 % 2 ^ 8 := field_eq a 23 8

theorem singleFrac_eq (a : Single) : singleFrac a = a.toNat % 2 ^ 23 := field_zero_eq a 23

theorem toNat_packSingle (sign : Bool) (exp frac : Nat) :
    (packSingle sign exp frac).toNat = sign.toNat * 2 ^ 31 + exp % 2 ^ 8 * 2 ^ 23 + frac % 2 ^ 23 := by
  calc (packSingle sign exp frac).toNat
      = (sign.toNat * 2 ^ 8 + exp % 2 ^ 8) * 2 ^ 23 + frac % 2 ^ 23 := by
        refine (toNat_append_eq_add _ _).trans ?_
        rw [toNat_append_eq_add, BitVec.toNat_ofBool, BitVec.toNat_ofNat, BitVec.toNat_ofNat]
    _ = _ := by ring

@[simp] theorem singleSign_packSingle (sign : Bool) (exp frac : Nat) :
    singleSign (packSingle sign exp frac) = sign := by
  rw [singleSign_eq, toNat_packSingle]
  cases sign with
  | false => exact decide_eq_false (by rw [Bool.toNat_false]; omega)
  | true => exact decide_eq_true (by rw [Bool.toNat_true]; omega)

@[simp] theorem singleExp_packSingle (sign : Bool) (exp frac : Nat) :
    singleExp (packSingle sign exp frac) = exp % 2 ^ 8 := by
  rw [singleExp_eq, toNat_packSingle]
  omega

@[simp] theorem singleFrac_packSingle (sign : Bool) (exp frac : Nat) :
    singleFrac (packSingle sign exp frac) = frac % 2 ^ 23 := by
  rw [singleFrac_eq, toNat_packSingle]
  omega

/-- An element is its three fields. -/
theorem single_ext {a b : Single} (hs : singleSign a = singleSign b) (he : singleExp a = singleExp b)
    (hf : singleFrac a = singleFrac b) : a = b := by
  rw [singleSign_eq, singleSign_eq, decide_eq_decide] at hs
  rw [singleExp_eq, singleExp_eq] at he
  rw [singleFrac_eq, singleFrac_eq] at hf
  apply BitVec.eq_of_toNat_eq
  have ha := a.isLt
  have hb := b.isLt
  omega

/-! ## Values in units of the last denormal place (R101) -/

/-- `(-1)^sign * m`. -/
def withSign (sign : Bool) (m : Nat) : ℤ := if sign then -(m : ℤ) else m

@[simp] theorem natAbs_withSign (sign : Bool) (m : Nat) : (withSign sign m).natAbs = m := by
  cases sign <;> simp [withSign]

@[simp] theorem withSign_zero (sign : Bool) : withSign sign 0 = 0 := by
  cases sign <;> rfl

theorem signed_num (sign : Bool) (m scale : Nat) : (Exact.signed sign m scale).num = withSign sign m := rfl

/-- The bits of a single-precision element without its sign: the elements of one sign are ordered as these numbers. -/
def singleBits (a : Single) : Nat := singleExp a * 2 ^ 23 + singleFrac a

/-- The magnitude, in units of `2^-149`, of the single-precision number with these bits (R101). -/
def magnitude (k : Nat) : Nat := if k < 2 ^ 23 then k else (2 ^ 23 + k % 2 ^ 23) * 2 ^ (k / 2 ^ 23 - 1)

/-- The value of a single-precision number in units of `2^-149` (R101). -/
def singleUnits (a : Single) : ℤ := withSign (singleSign a) (magnitude (singleBits a))

/-- The magnitude of a half-precision number in units of `2^-24` (R101). -/
def halfMagnitude (h : Half) : Nat :=
  if halfExp h = 0 then halfFrac h else (1024 + halfFrac h) * 2 ^ (halfExp h - 1)

/-- The value of a half-precision number in units of `2^-24` (R101). -/
def halfUnits (h : Half) : ℤ := withSign (halfSign h) (halfMagnitude h)

theorem magnitude_singleBits (a : Single) :
    magnitude (singleBits a) =
      if singleExp a = 0 then singleFrac a else (2 ^ 23 + singleFrac a) * 2 ^ (singleExp a - 1) := by
  have hf := singleFrac_lt a
  by_cases he : singleExp a = 0
  · rw [if_pos he, singleBits, he, Nat.zero_mul, Nat.zero_add, magnitude, if_pos hf]
  · have hexp : singleBits a / 2 ^ 23 = singleExp a := by unfold singleBits; omega
    have hfrac : singleBits a % 2 ^ 23 = singleFrac a := by unfold singleBits; omega
    rw [if_neg he, magnitude, hexp, hfrac, if_neg (by unfold singleBits; omega)]

theorem two_zpow_sub (e b : Nat) (he : e ≠ 0) : (2 : ℚ) ^ ((e : ℤ) - (b + 1 : ℕ)) = 2 ^ (e - 1) / 2 ^ b := by
  obtain ⟨k, rfl⟩ := Nat.exists_eq_succ_of_ne_zero he
  rw [zpow_sub₀ two_ne_zero, zpow_natCast, zpow_natCast, Nat.succ_sub_one, pow_succ, pow_succ]
  exact mul_div_mul_right _ _ two_ne_zero

theorem singleValue_eq (a : Single) : singleValue a = singleUnits a / 2 ^ 149 := by
  have hmag : (if singleExp a = 0 then (2 : ℚ) ^ (-126 : ℤ) * ((singleFrac a : ℚ) / 2 ^ 23)
      else (2 : ℚ) ^ ((singleExp a : ℤ) - 127) * (1 + (singleFrac a : ℚ) / 2 ^ 23)) =
      (magnitude (singleBits a) : ℚ) / 2 ^ 149 := by
    rw [magnitude_singleBits]
    by_cases he : singleExp a = 0
    · rw [if_pos he, if_pos he]
      ring
    · rw [if_neg he, if_neg he, show (127 : ℤ) = (126 + 1 : ℕ) by rfl, two_zpow_sub _ _ he]
      push_cast
      ring
  rw [singleValue, hmag, singleUnits, withSign]
  cases singleSign a <;> simp [neg_div]

theorem halfValue_eq (h : Half) : halfValue h = halfUnits h / 2 ^ 24 := by
  have hmag : (if halfExp h = 0 then (2 : ℚ) ^ (-14 : ℤ) * ((halfFrac h : ℚ) / 2 ^ 10)
      else (2 : ℚ) ^ ((halfExp h : ℤ) - 15) * (1 + (halfFrac h : ℚ) / 2 ^ 10)) = (halfMagnitude h : ℚ) / 2 ^ 24 := by
    rw [halfMagnitude]
    by_cases he : halfExp h = 0
    · rw [if_pos he, if_pos he]
      ring
    · rw [if_neg he, if_neg he, show (15 : ℤ) = (14 + 1 : ℕ) by rfl, two_zpow_sub _ _ he]
      push_cast
      ring
  rw [halfValue, hmag, halfUnits, withSign]
  cases halfSign h <;> simp [neg_div]

/-! ## The unpacked operands (R105, R106) -/

@[simp] theorem sign_unpack16 (h : Half) (fz16 : Bool) : (unpack16 h fz16).sign = halfSign h := by
  unfold unpack16
  split_ifs <;> rfl

@[simp] theorem sign_unpack32 (a : Single) (fz : Bool) : (unpack32 a fz).sign = singleSign a := by
  unfold unpack32
  split_ifs <;> rfl

@[simp] theorem scale_unpack16 (h : Half) (fz16 : Bool) : (unpack16 h fz16).val.scale = 24 := by
  unfold unpack16
  split_ifs <;> rfl

@[simp] theorem scale_unpack32 (a : Single) (fz : Bool) : (unpack32 a fz).val.scale = 149 := by
  unfold unpack32
  split_ifs <;> rfl

@[simp] theorem isNaN_unpack16 (h : Half) (fz16 : Bool) : (unpack16 h fz16).isNaN = decide (HalfNaN h) := by
  unfold unpack16
  split_ifs <;> simp [Unpacked.isNaN, *]

@[simp] theorem isNaN_unpack32 (a : Single) (fz : Bool) : (unpack32 a fz).isNaN = decide (SingleNaN a) := by
  unfold unpack32
  split_ifs <;> simp [Unpacked.isNaN, *]

@[simp] theorem isInf_unpack16 (h : Half) (fz16 : Bool) : (unpack16 h fz16).isInf = decide (HalfInf h) := by
  unfold unpack16
  split_ifs <;> simp [Unpacked.isInf, *]

@[simp] theorem isInf_unpack32 (a : Single) (fz : Bool) : (unpack32 a fz).isInf = decide (SingleInf a) := by
  unfold unpack32
  split_ifs <;> simp [Unpacked.isInf, *]

@[simp] theorem isZero_unpack16 (h : Half) (c : Word) :
    (unpack16 h (fpcrFz16 c)).isZero = decide (HalfZero c h) := by
  unfold unpack16
  split_ifs <;> simp [Unpacked.isZero, *]

@[simp] theorem isZero_unpack32 (a : Single) (c : Word) :
    (unpack32 a (fpcrFz c)).isZero = decide (SingleZero c a) := by
  unfold unpack32
  split_ifs <;> simp [Unpacked.isZero, *]

/-- The unpacked value of a finite half-precision element, in units of `2^-24`. -/
theorem num_unpack16 {h : Half} (hfin : HalfFinite h) (fz16 : Bool) :
    (unpack16 h fz16).val.num = if halfExp h = 0 ∧ fz16 = true then 0 else halfUnits h := by
  unfold unpack16 halfUnits halfMagnitude
  split_ifs <;> simp_all [signed_num]

/-- The unpacked value of a finite single-precision element, in units of `2^-149`. -/
theorem num_unpack32 {a : Single} (hfin : SingleFinite a) (fz : Bool) :
    (unpack32 a fz).val.num = if singleExp a = 0 ∧ fz = true then 0 else singleUnits a := by
  unfold unpack32 singleUnits
  rw [magnitude_singleBits]
  split_ifs <;> simp_all [signed_num]

theorem toRat_unpack16 {h : Half} (hfin : HalfFinite h) (fz16 : Bool) :
    (unpack16 h fz16).val.toRat = if halfExp h = 0 ∧ fz16 = true then 0 else halfValue h := by
  rw [Exact.toRat, scale_unpack16, num_unpack16 hfin, halfValue_eq]
  split <;> simp

theorem toRat_unpack32 {a : Single} (hfin : SingleFinite a) (fz : Bool) :
    (unpack32 a fz).val.toRat = if singleExp a = 0 ∧ fz = true then 0 else singleValue a := by
  rw [Exact.toRat, scale_unpack32, num_unpack32 hfin, singleValue_eq]
  split <;> simp

theorem halfValue_of_zero {h : Half} (he : halfExp h = 0) (hf : halfFrac h = 0) : halfValue h = 0 := by
  simp [halfValue, he, hf]

theorem singleValue_of_zero {a : Single} (he : singleExp a = 0) (hf : singleFrac a = 0) : singleValue a = 0 := by
  simp [singleValue, he, hf]

/-- Settles O43: the unpacked number is the element's value; under the flush bit only a zero remains to be looked at. -/
theorem unpackedValuesAreExact : Obligations.UnpackedValuesAreExact := by
  refine ⟨fun h fz16 hfin hflush => ?_, fun a fz hfin hflush => ?_⟩
  · rw [toRat_unpack16 hfin]
    split
    · next hz => exact (halfValue_of_zero hz.1 (by tauto)).symm
    · rfl
  · rw [toRat_unpack32 hfin]
    split
    · next hz => exact (singleValue_of_zero hz.1 (by tauto)).symm
    · rfl

end Sys2Proof.Machine
end

section
/-!
The special operands: NaN, infinities, and the exchange of the factors (41_fp_numerics.md R108, R110, R111, R115).
-/

namespace Sys2Proof.Machine

variable {a x y : Unpacked} (mode : RoundingMode) (fz : Bool)

theorem mulAddUnpacked_of_isNaN (h : a.isNaN = true ∨ x.isNaN = true ∨ y.isNaN = true) :
    mulAddUnpacked a x y mode fz = defaultNaN := by
  rw [mulAddUnpacked, if_pos (by simpa [or_assoc] using h)]

theorem not_isZero_of_isInf {u : Unpacked} (h : u.isInf = true) : u.isZero = false := by
  simp_all [Unpacked.isInf, Unpacked.isZero]

section NoNaN

variable (ha : a.isNaN = false) (hx : x.isNaN = false) (hy : y.isNaN = false)
include ha hx hy

theorem mulAddUnpacked_of_inf_mul_zero
    (h : (x.isInf = true ∧ y.isZero = true) ∨ (x.isZero = true ∧ y.isInf = true)) :
    mulAddUnpacked a x y mode fz = defaultNaN := by
  rcases h with ⟨hinf, hzero⟩ | ⟨hzero, hinf⟩ <;> simp [mulAddUnpacked, ha, hx, hy, hinf, hzero]

theorem mulAddUnpacked_of_inf_product
    (h : (x.isInf = true ∧ y.isZero = false) ∨ (x.isZero = false ∧ y.isInf = true)) :
    mulAddUnpacked a x y mode fz =
      if a.isInf = true ∧ a.sign ≠ (x.sign ^^ y.sign) then defaultNaN else signedInfinity (x.sign ^^ y.sign) := by
  have hvalid : (x.isInf && y.isZero || x.isZero && y.isInf) = false := by
    rcases h with ⟨hinf, hzero⟩ | ⟨hzero, hinf⟩ <;> simp [hinf, hzero, not_isZero_of_isInf hinf]
  have hinfP : (x.isInf || y.isInf) = true := by
    rcases h with ⟨hinf, -⟩ | ⟨-, hinf⟩ <;> simp [hinf]
  have hsp : (x.sign != y.sign) = (x.sign ^^ y.sign) := rfl
  simp only [mulAddUnpacked, ha, hx, hy, hvalid, hinfP, hsp]
  generalize (x.sign ^^ y.sign) = sp
  cases a.isInf with
  | false => cases sp <;> rfl
  | true => cases a.sign <;> cases sp <;> rfl

theorem mulAddUnpacked_of_inf_addend (hinf : a.isInf = true) (hxf : x.isInf = false) (hyf : y.isInf = false) :
    mulAddUnpacked a x y mode fz = signedInfinity a.sign := by
  cases hs : a.sign <;> simp [mulAddUnpacked, ha, hx, hy, hinf, hxf, hyf, hs]

/-- What is left when no operand is a NaN or an infinity: two zeros of one sign, or the exact sum (R114, R104). -/
theorem mulAddUnpacked_of_finite (haf : a.isInf = false) (hxf : x.isInf = false) (hyf : y.isInf = false) :
    mulAddUnpacked a x y mode fz =
      if a.isZero = true ∧ (x.isZero = true ∨ y.isZero = true) ∧ a.sign = (x.sign ^^ y.sign) then signedZero a.sign
      else if (a.val.add (x.val.mul y.val)).num = 0 then signedZero (mode == .rm)
      else round32 (a.val.add (x.val.mul y.val)) mode fz := by
  simp [mulAddUnpacked, ha, hx, hy, haf, hxf, hyf, and_assoc]

end NoNaN

theorem signedInfinity_eq (sign : Bool) : signedInfinity sign = if sign then 0xFF800000#32 else 0x7F800000#32 := by
  cases sign <;> rfl

theorem signedZero_eq (sign : Bool) : signedZero sign = if sign then 0x80000000#32 else 0x00000000#32 := by
  cases sign <;> rfl

/-- Settles O44: the test for a NaN comes first. -/
theorem naNOperandGivesDefaultNaN : Obligations.NaNOperandGivesDefaultNaN := by
  intro a x y c h
  exact mulAddUnpacked_of_isNaN _ _ (by simpa using h)

/-- Settles O45: the invalid products, the infinite products and the infinite addend, in that order. -/
theorem infinitiesAndInvalidOperations : Obligations.InfinitiesAndInvalidOperations := by
  intro a x y c ha hx hy
  have ha' : (unpack32 a (fpcrFz c)).isNaN = false := by simpa using ha
  have hx' : (unpack16 x (fpcrFz16 c)).isNaN = false := by simpa using hx
  have hy' : (unpack16 y (fpcrFz16 c)).isNaN = false := by simpa using hy
  refine ⟨fun h => ?_, fun h => ?_, fun hinf hxf hyf => ?_⟩
  · exact mulAddUnpacked_of_inf_mul_zero _ _ ha' hx' hy' (by simpa using h)
  · rw [fpMulAddReference, mulAddUnpacked_of_inf_product _ _ ha' hx' hy' (by simpa using h), signedInfinity_eq]
    simp [defaultNaN]
  · rw [fpMulAddReference, mulAddUnpacked_of_inf_addend _ _ ha' hx' hy' (by simpa using hinf) (by simpa using hxf)
      (by simpa using hyf), signedInfinity_eq, sign_unpack32]

theorem mul_comm_exact (x y : Exact) : x.mul y = y.mul x := by
  rw [Exact.mul, Exact.mul, Int.mul_comm, Nat.add_comm]

theorem mulAddUnpacked_swap (a x y : Unpacked) (mode : RoundingMode) (fz : Bool) :
    mulAddUnpacked a x y mode fz = mulAddUnpacked a y x mode fz := by
  have hnan : (a.isNaN || x.isNaN || y.isNaN) = (a.isNaN || y.isNaN || x.isNaN) := Bool.or_right_comm ..
  have hinvalid : (x.isInf && y.isZero || x.isZero && y.isInf) = (y.isInf && x.isZero || y.isZero && x.isInf) := by
    rw [Bool.or_comm, Bool.and_comm, Bool.and_comm y.isZero]
  have hsign : (x.sign != y.sign) = (y.sign != x.sign) := bne_comm
  simp only [mulAddUnpacked, hnan, hinvalid, hsign, Bool.or_comm x.isInf, Bool.or_comm x.isZero,
    mul_comm_exact x.val y.val]

/-- Settles O49: every test and the exact product treat the factors alike. -/
theorem factorsCommute : Obligations.FactorsCommute :=
  fun _ _ _ _ => mulAddUnpacked_swap ..

end Sys2Proof.Machine
end

section
/-!
The single-precision numbers of one sign as an increasing sequence, and rounding as the choice between two neighbours of
it (41_fp_numerics.md R113). An exact sum is a whole number of units of `2^-149` (R105, R106), so a sum below `2^-126`
is never rounded.
-/

namespace Sys2Proof.Machine

/-! ## The sequence of magnitudes -/

/-- The distance from the magnitude with bits `k` to the next, in units of `2^-149`. -/
def spacing (k : Nat) : Nat := 2 ^ (k / 2 ^ 23 - 1)

/-- The bits of the infinity: the first number of the sequence that is not finite. -/
abbrev infBits : Nat := 255 * 2 ^ 23

theorem spacing_pos (k : Nat) : 0 < spacing k := Nat.two_pow_pos _

theorem magnitude_of_lt {k : Nat} (h : k < 2 ^ 23) : magnitude k = k := if_pos h

theorem magnitude_of_normal {exp : Nat} (hexp : exp ≠ 0) {frac : Nat} (hfrac : frac < 2 ^ 23) :
    magnitude (exp * 2 ^ 23 + frac) = (2 ^ 23 + frac) * 2 ^ (exp - 1) := by
  rw [magnitude, if_neg (by omega), show (exp * 2 ^ 23 + frac) % 2 ^ 23 = frac by omega,
    show (exp * 2 ^ 23 + frac) / 2 ^ 23 = exp by omega]

theorem spacing_of_normal (exp : Nat) {frac : Nat} (hfrac : frac < 2 ^ 23) :
    spacing (exp * 2 ^ 23 + frac) = 2 ^ (exp - 1) := by
  rw [spacing, show (exp * 2 ^ 23 + frac) / 2 ^ 23 = exp by omega]

theorem spacing_of_lt {k : Nat} (h : k < 2 ^ 23) : spacing k = 1 := by
  rw [spacing, Nat.div_eq_of_lt h]
  rfl

theorem magnitude_succ (k : Nat) : magnitude (k + 1) = magnitude k + spacing k := by
  by_cases hk : k < 2 ^ 23
  · rw [magnitude_of_lt hk, spacing_of_lt hk]
    by_cases hk' : k + 1 < 2 ^ 23
    · exact magnitude_of_lt hk'
    · rw [show k + 1 = 1 * 2 ^ 23 + 0 by omega, magnitude_of_normal one_ne_zero (by decide)]
      rfl
  · obtain ⟨exp, frac, hfrac, rfl⟩ : ∃ exp frac, frac < 2 ^ 23 ∧ k = (exp + 1) * 2 ^ 23 + frac :=
      ⟨k / 2 ^ 23 - 1, k % 2 ^ 23, by omega, by omega⟩
    have hexp : exp + 1 ≠ 0 := exp.succ_ne_zero
    rw [magnitude_of_normal hexp hfrac, spacing_of_normal _ hfrac, Nat.add_sub_cancel]
    by_cases hcarry : frac + 1 < 2 ^ 23
    · rw [Nat.add_assoc, magnitude_of_normal hexp hcarry, Nat.add_sub_cancel]
      ring
    · rw [show (exp + 1) * 2 ^ 23 + frac + 1 = (exp + 2) * 2 ^ 23 + 0 by omega,
        magnitude_of_normal (by omega) (by decide), show frac = 2 ^ 23 - 1 by omega,
        show exp + 2 - 1 = exp + 1 from rfl, Nat.pow_succ]
      omega

theorem magnitude_strictMono : StrictMono magnitude :=
  strictMono_nat_of_lt_succ fun k => by
    rw [magnitude_succ]
    exact Nat.lt_add_of_pos_right (spacing_pos k)

/-! ## The neighbours of an exact magnitude -/

/-- The bits of the largest single-precision magnitude not above `m` units of `2^-149`. -/
def lowerBits (m : Nat) : Nat :=
  if m < 2 ^ 23 then m else (m.log2 - 22) * 2 ^ 23 + (m / 2 ^ (m.log2 - 23) - 2 ^ 23)

/-- A magnitude of 24 bits and more, by its leading 24 bits and the rest. -/
theorem leading_bits {m : Nat} (h : 2 ^ 23 ≤ m) :
    23 ≤ m.log2 ∧ 2 ^ 23 ≤ m / 2 ^ (m.log2 - 23) ∧ m / 2 ^ (m.log2 - 23) < 2 ^ 24 := by
  have hm : m ≠ 0 := by omega
  have hlog : 23 ≤ m.log2 := (Nat.le_log2 hm).2 h
  refine ⟨hlog, ?_, ?_⟩
  · rw [Nat.le_div_iff_mul_le (Nat.two_pow_pos _), ← Nat.pow_add, Nat.add_sub_cancel' hlog]
    exact Nat.log2_self_le hm
  · rw [Nat.div_lt_iff_lt_mul (Nat.two_pow_pos _), ← Nat.pow_add, show 24 + (m.log2 - 23) = m.log2 + 1 by omega]
    exact Nat.lt_log2_self

theorem magnitude_lowerBits {m : Nat} (h : 2 ^ 23 ≤ m) :
    magnitude (lowerBits m) = m / 2 ^ (m.log2 - 23) * 2 ^ (m.log2 - 23) := by
  obtain ⟨hlog, hlow, hhigh⟩ := leading_bits h
  rw [lowerBits, if_neg (by omega), magnitude_of_normal (by omega) (by omega), Nat.add_sub_cancel' hlow,
    show m.log2 - 22 - 1 = m.log2 - 23 by omega]

theorem spacing_lowerBits {m : Nat} (h : 2 ^ 23 ≤ m) : spacing (lowerBits m) = 2 ^ (m.log2 - 23) := by
  obtain ⟨hlog, hlow, hhigh⟩ := leading_bits h
  rw [lowerBits, if_neg (by omega), spacing_of_normal _ (by omega), show m.log2 - 22 - 1 = m.log2 - 23 by omega]

/-- What `round32` divides by the spacing is what lies above the lower neighbour. -/
theorem sub_magnitude_lowerBits {m : Nat} (h : 2 ^ 23 ≤ m) :
    m - magnitude (lowerBits m) = m % 2 ^ (m.log2 - 23) := by
  have hdiv := Nat.div_add_mod' m (2 ^ (m.log2 - 23))
  rw [magnitude_lowerBits h]
  omega

theorem magnitude_lowerBits_le (m : Nat) : magnitude (lowerBits m) ≤ m := by
  by_cases h : m < 2 ^ 23
  · rw [lowerBits, if_pos h, magnitude_of_lt h]
  · rw [magnitude_lowerBits (not_lt.1 h)]
    exact Nat.div_mul_le_self ..

theorem lt_magnitude_lowerBits_succ (m : Nat) : m < magnitude (lowerBits m + 1) := by
  rw [magnitude_succ]
  by_cases h : m < 2 ^ 23
  · rw [lowerBits, if_pos h, magnitude_of_lt h]
    exact Nat.lt_add_of_pos_right (spacing_pos m)
  · have hrem := sub_magnitude_lowerBits (not_lt.1 h)
    have hlt := Nat.mod_lt m (Nat.two_pow_pos (m.log2 - 23))
    rw [spacing_lowerBits (not_lt.1 h)]
    omega

theorem magnitude_le_iff {k m : Nat} : magnitude k ≤ m ↔ k ≤ lowerBits m := by
  constructor
  · intro h
    have hlt := h.trans_lt (lt_magnitude_lowerBits_succ m)
    rw [magnitude_strictMono.lt_iff_lt] at hlt
    omega
  · exact fun h => (magnitude_strictMono.monotone h).trans (magnitude_lowerBits_le m)

theorem lowerBits_magnitude (k : Nat) : lowerBits (magnitude k) = k := by
  have hle := magnitude_le_iff.1 (le_refl (magnitude k))
  have hge := magnitude_strictMono.le_iff_le.1 (magnitude_lowerBits_le (magnitude k))
  omega

theorem lowerBits_lt_iff {k m : Nat} : lowerBits m < k ↔ m < magnitude k := by
  rw [← not_le, ← not_le, magnitude_le_iff]

/-! ## Rounding -/

/-- The bits a magnitude of `m` units is rounded to: those of one of its neighbours (R113 `round_up`). -/
def roundedBits (mode : RoundingMode) (sign : Bool) (m : Nat) : Nat :=
  if roundUp mode sign (lowerBits m) (m - magnitude (lowerBits m)) (spacing (lowerBits m)) then lowerBits m + 1
  else lowerBits m

/-- The element of a sign with these bits. -/
def packBits (sign : Bool) (k : Nat) : Single := packSingle sign (k / 2 ^ 23) k

theorem roundUp_exact (mode : RoundingMode) (sign : Bool) (int : Nat) {den : Nat} (hden : 0 < den) :
    roundUp mode sign int 0 den = false := by
  cases mode with
  | rn => simp [roundUp, hden.ne]
  | rp => rfl
  | rm => rfl
  | rz => rfl

/-- A magnitude of the sequence is not rounded. -/
theorem roundedBits_magnitude (mode : RoundingMode) (sign : Bool) (k : Nat) :
    roundedBits mode sign (magnitude k) = k := by
  rw [roundedBits, lowerBits_magnitude, Nat.sub_self, roundUp_exact _ _ _ (spacing_pos k), if_neg Bool.false_ne_true]

/-- `round_up` depends on the quotient through its fraction and its parity only. -/
theorem roundUp_scaled (mode : RoundingMode) (sign : Bool) {int int' : Nat} (h : int % 2 = int' % 2) (rem den : Nat)
    {d : Nat} (hd : 0 < d) :
    roundUp mode sign int (rem * d) (den * d) = roundUp mode sign int' rem den := by
  have hassoc : 2 * (rem * d) = 2 * rem * d := (Nat.mul_assoc ..).symm
  have htie : (2 * rem * d == den * d) = (2 * rem == den) := by
    simp only [beq_eq_decide, Nat.mul_left_inj hd.ne']
  have hzero : (rem * d != 0) = (rem != 0) := by simp [bne, hd.ne']
  cases mode with
  | rn => simp only [roundUp, hassoc, Nat.mul_lt_mul_right hd, htie, h]
  | rp => simp only [roundUp, hzero]
  | rm => simp only [roundUp, hzero]
  | rz => rfl

/-- A mode that rounds up out of the finite numbers is one that overflows to infinity (R113). -/
theorem overflowToInf_of_roundUp {mode : RoundingMode} {sign : Bool} {int rem den : Nat}
    (h : roundUp mode sign int rem den = true) : overflowToInf mode sign = true := by
  cases mode <;> simp_all [roundUp, overflowToInf]

theorem packSingle_eq_packBits (sign : Bool) (exp : Nat) {frac : Nat} (h : frac < 2 ^ 23) (int : Nat)
    (hint : int % 2 ^ 23 = frac) : packSingle sign exp int = packBits sign (exp * 2 ^ 23 + frac) := by
  refine single_ext ?_ ?_ ?_
  · simp [packBits]
  · rw [packBits, singleExp_packSingle, singleExp_packSingle]
    omega
  · rw [packBits, singleFrac_packSingle, singleFrac_packSingle]
    omega

theorem signedInfinity_eq_packBits (sign : Bool) : signedInfinity sign = packBits sign infBits := by
  cases sign <;> rfl

/-- The result of rounding to a number whose mantissa has its leading bit. -/
theorem finishRound_of_normal (mode : RoundingMode) (sign : Bool) {biased int : Nat} (hb : biased < 255)
    (hlow : 2 ^ 23 ≤ int) (hhigh : int < 2 ^ 24) :
    finishRound mode sign biased int = packBits sign (biased * 2 ^ 23 + (int - 2 ^ 23)) := by
  rw [finishRound, if_neg (by omega),
    packSingle_eq_packBits (frac := int - 2 ^ 23) sign biased (by omega) int (by omega)]

/-- The result of rounding up: the next number, which is the infinity after the largest finite one. -/
theorem finishRound_roundedUp {mode : RoundingMode} {sign : Bool} (hinf : overflowToInf mode sign = true)
    {biased int : Nat} (hb : biased < 255) (hlow : 2 ^ 23 ≤ int) (hhigh : int < 2 ^ 24) :
    finishRound mode sign (roundedUp biased int).1 (roundedUp biased int).2 =
      packBits sign (biased * 2 ^ 23 + (int - 2 ^ 23) + 1) := by
  rw [roundedUp, if_neg (show int + 1 ≠ 2 ^ 23 by omega)]
  by_cases hcarry : int + 1 = 2 ^ 24
  · rw [if_pos hcarry, show biased * 2 ^ 23 + (int - 2 ^ 23) + 1 = (biased + 1) * 2 ^ 23 + 0 by omega]
    by_cases hover : biased + 1 = 255
    · rw [finishRound, if_pos hover.ge, if_pos hinf, signedInfinity_eq_packBits, hover]
      rfl
    · rw [finishRound_of_normal mode sign (by omega) (by omega) (by omega)]
      exact congrArg (packBits sign) (by omega)
  · rw [if_neg hcarry, finishRound_of_normal mode sign hb (by omega) (by omega)]
    exact congrArg (packBits sign) (by omega)

/-- An exact sum below the smallest normal number is a denormal, or zero, as it is (R105, R106, R113). -/
theorem round32_of_lt (n : ℤ) (mode : RoundingMode) (h : n.natAbs < 2 ^ 23) :
    round32 ⟨n, 149⟩ mode false = packBits (decide (n < 0)) n.natAbs := by
  have hlog : n.natAbs.log2 ≤ 22 := by
    by_cases hn : n.natAbs = 0
    · simp [hn]
    · exact Nat.lt_succ_iff.1 ((Nat.log2_lt hn).2 h)
  have hbiased : ((n.natAbs.log2 : ℤ) - (149 : ℕ) + 127).toNat = 0 := by omega
  have hint : n.natAbs * 2 ^ 149 / 2 ^ 149 = n.natAbs := Nat.mul_div_cancel _ (Nat.two_pow_pos 149)
  have hrem : n.natAbs * 2 ^ 149 % 2 ^ 149 = 0 := Nat.mul_mod_left ..
  simp only [round32, hbiased, hint, hrem, roundUp_exact, Nat.two_pow_pos, if_true, if_false, false_and,
    Bool.false_eq_true]
  rw [finishRound, if_neg (by decide), packSingle_eq_packBits _ 0 h _ (Nat.mod_eq_of_lt h), Nat.zero_mul, Nat.zero_add]

theorem round32_of_le (n : ℤ) (mode : RoundingMode) (fz : Bool) (h : 2 ^ 23 ≤ n.natAbs)
    (hmax : n.natAbs < magnitude infBits) :
    round32 ⟨n, 149⟩ mode fz = packBits (decide (n < 0)) (roundedBits mode (decide (n < 0)) n.natAbs) := by
  obtain ⟨hlog, hlow, hhigh⟩ := leading_bits h
  have hbits : lowerBits n.natAbs =
      (n.natAbs.log2 - 22) * 2 ^ 23 + (n.natAbs / 2 ^ (n.natAbs.log2 - 23) - 2 ^ 23) := if_neg (by omega)
  have hfinite := lowerBits_lt_iff.2 hmax
  rw [hbits, infBits] at hfinite
  have hden : 2 ^ n.natAbs.log2 = 2 ^ (n.natAbs.log2 - 23) * 2 ^ 23 := by
    rw [← Nat.pow_add, Nat.sub_add_cancel hlog]
  have hflush : ¬(fz = true ∧ (n.natAbs.log2 : ℤ) - (149 : ℕ) < -126) := by omega
  have hbiased : ((n.natAbs.log2 : ℤ) - (149 : ℕ) + 127).toNat = n.natAbs.log2 - 22 := by omega
  have hnormal : ¬(n.natAbs.log2 - 22 = 0) := by omega
  have hparity : n.natAbs / 2 ^ (n.natAbs.log2 - 23) % 2 = lowerBits n.natAbs % 2 := by omega
  simp only [round32, hflush, hbiased, hnormal, if_false, hden, Nat.mul_div_mul_right _ _ (Nat.two_pow_pos 23),
    Nat.mul_mod_mul_right, roundUp_scaled mode _ hparity _ _ (Nat.two_pow_pos 23)]
  rw [roundedBits, sub_magnitude_lowerBits h, spacing_lowerBits h]
  split
  · next hup =>
    rw [finishRound_roundedUp (overflowToInf_of_roundUp hup) (by omega) hlow hhigh, hbits]
  · rw [finishRound_of_normal mode _ (by omega) hlow hhigh, hbits]

/-- Rounding an exact sum that is not flushed chooses one of its neighbours (R113). -/
theorem round32_eq {n : ℤ} {fz : Bool} (hflush : fz = true → 2 ^ 23 ≤ n.natAbs) (hmax : n.natAbs < magnitude infBits)
    (mode : RoundingMode) :
    round32 ⟨n, 149⟩ mode fz = packBits (decide (n < 0)) (roundedBits mode (decide (n < 0)) n.natAbs) := by
  by_cases h : n.natAbs < 2 ^ 23
  · have hfz : fz = false := by
      cases fz with
      | false => rfl
      | true => exact absurd (hflush rfl) (not_le.2 h)
    rw [hfz, round32_of_lt n mode h, roundedBits, lowerBits, if_pos h, magnitude_of_lt h, Nat.sub_self,
      roundUp_exact _ _ _ (spacing_pos _), if_neg Bool.false_ne_true]
  · exact round32_of_le n mode fz (not_lt.1 h) hmax

end Sys2Proof.Machine
end

section
/-!
The exact sum of finite operands as a whole number of units of `2^-149`, its bounds, and the reference definition as the
rounding of it (41_fp_numerics.md R102, R104, R114, R119).
-/

namespace Sys2Proof.Machine

/-! ## Elements and their bits -/

theorem singleBits_packBits (sign : Bool) {k : Nat} (h : k < 2 ^ 31) : singleBits (packBits sign k) = k := by
  rw [singleBits, packBits, singleExp_packSingle, singleFrac_packSingle]
  omega

theorem singleExp_packBits (sign : Bool) {k : Nat} (h : k < 2 ^ 31) : singleExp (packBits sign k) = k / 2 ^ 23 := by
  rw [packBits, singleExp_packSingle]
  omega

theorem singleUnits_packBits (sign : Bool) {k : Nat} (h : k < 2 ^ 31) :
    singleUnits (packBits sign k) = withSign sign (magnitude k) := by
  rw [singleUnits, singleBits_packBits sign h, packBits, singleSign_packSingle]

theorem packBits_singleBits (a : Single) : packBits (singleSign a) (singleBits a) = a := by
  have hexp := singleExp_lt a
  have hfrac := singleFrac_lt a
  refine single_ext ?_ ?_ ?_
  · rw [packBits, singleSign_packSingle]
  · rw [packBits, singleExp_packSingle, singleBits]
    omega
  · rw [packBits, singleFrac_packSingle, singleBits]
    omega

theorem singleBits_lt_infBits {a : Single} (h : SingleFinite a) : singleBits a < infBits := by
  have hexp := singleExp_lt a
  have hfrac := singleFrac_lt a
  unfold SingleFinite at h
  unfold singleBits infBits
  omega

theorem singleFinite_packBits (sign : Bool) {k : Nat} (h : k < infBits) : SingleFinite (packBits sign k) := by
  unfold infBits at h
  rw [SingleFinite, singleExp_packBits sign (by omega)]
  omega

theorem singleUnits_eq_zero_iff (a : Single) : singleUnits a = 0 ↔ singleExp a = 0 ∧ singleFrac a = 0 := by
  have hzero : magnitude (singleBits a) = 0 ↔ singleBits a = 0 := by
    rw [← Nat.le_zero, magnitude_le_iff]
    exact Nat.le_zero
  rw [← Int.natAbs_eq_zero, singleUnits, natAbs_withSign, hzero, singleBits]
  omega

theorem withSign_lt_zero {m : Nat} (h : m ≠ 0) (sign : Bool) : decide (withSign sign m < 0) = sign := by
  cases sign with
  | false => exact decide_eq_false (Int.natCast_nonneg m).not_gt
  | true => exact decide_eq_true (Int.neg_neg_of_pos (Int.natCast_pos.2 (Nat.pos_of_ne_zero h)))

/-! ## The terms of the sum -/

/-- The exact product of the factors in units of `2^-149`. -/
def productUnits (x y : Half) (fz16 : Bool) : ℤ :=
  (unpack16 x fz16).val.num * (unpack16 y fz16).val.num * 2 ^ 101

/-- The exact sum in units of `2^-149`. -/
def sumUnits (a : Single) (x y : Half) (fz fz16 : Bool) : ℤ := (unpack32 a fz).val.num + productUnits x y fz16

theorem unpacked_sum (a : Single) (x y : Half) (fz fz16 : Bool) :
    (unpack32 a fz).val.add ((unpack16 x fz16).val.mul (unpack16 y fz16).val) = ⟨sumUnits a x y fz fz16, 149⟩ := by
  simp [Exact.add, Exact.mul, sumUnits, productUnits]

theorem halfMagnitude_lt {h : Half} (hfin : HalfFinite h) : halfMagnitude h < 2 ^ 40 := by
  have hexp := halfExp_lt h
  have hfrac := halfFrac_lt h
  unfold halfMagnitude
  split
  · omega
  · calc (1024 + halfFrac h) * 2 ^ (halfExp h - 1)
        < 2 ^ 11 * 2 ^ 29 := Nat.mul_lt_mul_of_lt_of_le (by omega)
          (Nat.pow_le_pow_right Nat.two_pos (by omega)) (Nat.two_pow_pos 29)
      _ = 2 ^ 40 := by norm_num

theorem num_unpack16_of_not_finite {h : Half} (hfin : ¬ HalfFinite h) (fz16 : Bool) :
    (unpack16 h fz16).val.num = 0 := by
  rw [HalfFinite, ne_eq, not_not] at hfin
  unfold unpack16
  rw [if_neg (by omega), if_pos hfin]
  split_ifs <;> rfl

theorem num_unpack32_of_not_finite {a : Single} (hfin : ¬ SingleFinite a) (fz : Bool) :
    (unpack32 a fz).val.num = 0 := by
  rw [SingleFinite, ne_eq, not_not] at hfin
  unfold unpack32
  rw [if_neg (by omega), if_pos hfin]
  split_ifs <;> rfl

theorem natAbs_unpack16_lt (h : Half) (fz16 : Bool) : (unpack16 h fz16).val.num.natAbs < 2 ^ 40 := by
  by_cases hfin : HalfFinite h
  · rw [num_unpack16 hfin]
    split
    · decide
    · rw [halfUnits, natAbs_withSign]
      exact halfMagnitude_lt hfin
  · rw [num_unpack16_of_not_finite hfin]
    decide

theorem natAbs_productUnits_lt (x y : Half) (fz16 : Bool) : (productUnits x y fz16).natAbs < 2 ^ 181 := by
  have h := Nat.mul_lt_mul'' (natAbs_unpack16_lt x fz16) (natAbs_unpack16_lt y fz16)
  rw [productUnits, Int.natAbs_mul, Int.natAbs_mul, Int.natAbs_pow]
  simp only [Int.reduceAbs]
  omega

/-- The unpacked addend is zero or the number it encodes. -/
theorem num_unpack32_cases (a : Single) (fz : Bool) :
    (unpack32 a fz).val.num = 0 ∨
      (SingleFinite a ∧ ¬ (singleExp a = 0 ∧ fz = true) ∧ (unpack32 a fz).val.num = singleUnits a) := by
  by_cases hfin : SingleFinite a
  · rw [num_unpack32 hfin]
    split
    · exact .inl rfl
    · next h => exact .inr ⟨hfin, h, rfl⟩
  · exact .inl (num_unpack32_of_not_finite hfin fz)

theorem natAbs_unpack32_le (a : Single) (fz : Bool) :
    (unpack32 a fz).val.num.natAbs ≤ magnitude (infBits - 1) := by
  rcases num_unpack32_cases a fz with h | ⟨hfin, -, h⟩
  · simp [h]
  · rw [h, singleUnits, natAbs_withSign, magnitude_strictMono.le_iff_le]
    exact Nat.le_sub_one_of_lt (singleBits_lt_infBits hfin)

theorem spacing_largest : spacing (infBits - 1) = 2 ^ 253 := by
  rw [spacing, show (infBits - 1) / 2 ^ 23 - 1 = 253 by decide]

theorem magnitude_infBits_eq : magnitude infBits = magnitude (infBits - 1) + 2 ^ 253 := by
  have hsucc : infBits = infBits - 1 + 1 := by decide
  calc magnitude infBits = magnitude (infBits - 1 + 1) := congrArg magnitude hsucc
    _ = magnitude (infBits - 1) + spacing (infBits - 1) := magnitude_succ _
    _ = magnitude (infBits - 1) + 2 ^ 253 := congrArg _ spacing_largest

theorem natAbs_sumUnits_lt (a : Single) (x y : Half) (fz fz16 : Bool) :
    (sumUnits a x y fz fz16).natAbs < magnitude (infBits - 1) + 2 ^ 181 :=
  (Int.natAbs_add_le _ _).trans_lt
    (Nat.add_lt_add_of_le_of_lt (natAbs_unpack32_le a fz) (natAbs_productUnits_lt x y fz16))

theorem natAbs_sumUnits_lt_infBits (a : Single) (x y : Half) (fz fz16 : Bool) :
    (sumUnits a x y fz fz16).natAbs < magnitude infBits := by
  rw [magnitude_infBits_eq]
  exact (natAbs_sumUnits_lt a x y fz fz16).trans (Nat.add_lt_add_left (by norm_num) _)

/-! ## A sum is not flushed on output (R119) -/

/-- An addend is far below the smallest product, or a multiple of `2^-72`. -/
theorem num_unpack32_small_or_coarse (a : Single) (fz : Bool) :
    (unpack32 a fz).val.num.natAbs < 2 ^ 100 ∨ 2 ^ 77 ∣ (unpack32 a fz).val.num.natAbs := by
  rcases num_unpack32_cases a fz with h | ⟨-, -, h⟩
  · simp [h]
  · have hfrac := singleFrac_lt a
    rw [h, singleUnits, natAbs_withSign, magnitude_singleBits]
    by_cases hexp : singleExp a < 78
    · left
      split
      · omega
      · calc (2 ^ 23 + singleFrac a) * 2 ^ (singleExp a - 1)
            < 2 ^ 24 * 2 ^ 76 := Nat.mul_lt_mul_of_lt_of_le (by omega)
              (Nat.pow_le_pow_right Nat.two_pos (by omega)) (Nat.two_pow_pos 76)
          _ = 2 ^ 100 := by norm_num
    · right
      rw [if_neg (by omega)]
      exact Dvd.dvd.mul_left (Nat.pow_dvd_pow 2 (by omega)) _

theorem le_natAbs_productUnits {x y : Half} {fz16 : Bool} (h : productUnits x y fz16 ≠ 0) :
    2 ^ 101 ≤ (productUnits x y fz16).natAbs := by
  rw [productUnits] at h ⊢
  have hfactors : (unpack16 x fz16).val.num * (unpack16 y fz16).val.num ≠ 0 := left_ne_zero_of_mul h
  rw [Int.natAbs_mul]
  exact Nat.le_mul_of_pos_left _ (Int.natAbs_pos.2 hfactors)

/-- With a non-zero product a non-zero sum is at least `2^-72`: the addend cancels the product to within its own
spacing at most (R119 (a)). -/
theorem le_natAbs_sumUnits {a : Single} {x y : Half} {fz fz16 : Bool} (hprod : productUnits x y fz16 ≠ 0)
    (hsum : sumUnits a x y fz fz16 ≠ 0) : 2 ^ 77 ≤ (sumUnits a x y fz fz16).natAbs := by
  rcases num_unpack32_small_or_coarse a fz with hsmall | hcoarse
  · have hlarge := le_natAbs_productUnits hprod
    rw [sumUnits]
    omega
  · refine Nat.le_of_dvd (Int.natAbs_pos.2 hsum) (Int.natCast_dvd.1 ?_)
    refine dvd_add (Int.natCast_dvd.2 hcoarse) (Dvd.dvd.mul_left ?_ _)
    exact pow_dvd_pow 2 (show 77 ≤ 101 by decide)

/-- With `FZ` set a non-zero sum is a normal number: its addend is one, or is zero beside the product (R119 (c)). -/
theorem sumUnits_not_flushed {a : Single} {x y : Half} {fz fz16 : Bool} (hsum : sumUnits a x y fz fz16 ≠ 0)
    (hfz : fz = true) : 2 ^ 23 ≤ (sumUnits a x y fz fz16).natAbs := by
  by_cases hprod : productUnits x y fz16 = 0
  · have hsum' : sumUnits a x y fz fz16 = (unpack32 a fz).val.num := by rw [sumUnits, hprod, add_zero]
    rw [hsum'] at hsum ⊢
    rcases num_unpack32_cases a fz with h | ⟨-, hflush, h⟩
    · exact absurd h hsum
    · have hbits : 2 ^ 23 ≤ singleBits a := by
        have hexp : singleExp a ≠ 0 := fun h0 => hflush ⟨h0, hfz⟩
        unfold singleBits
        omega
      rw [h, singleUnits, natAbs_withSign]
      exact hbits.trans (magnitude_strictMono.le_apply)
  · exact le_trans (by norm_num) (le_natAbs_sumUnits hprod hsum)

theorem round32_sumUnits {a : Single} {x y : Half} {fz fz16 : Bool} (hsum : sumUnits a x y fz fz16 ≠ 0)
    (mode : RoundingMode) (fz' : Bool) (hfz' : fz' = true → fz = true) :
    round32 ⟨sumUnits a x y fz fz16, 149⟩ mode fz' =
      packBits (decide (sumUnits a x y fz fz16 < 0))
        (roundedBits mode (decide (sumUnits a x y fz fz16 < 0)) (sumUnits a x y fz fz16).natAbs) :=
  round32_eq (fun h => sumUnits_not_flushed hsum (hfz' h)) (natAbs_sumUnits_lt_infBits ..) mode

/-! ## Zero operands -/

theorem num_unpack16_of_zero {c : Word} {h : Half} (hz : HalfZero c h) : (unpack16 h (fpcrFz16 c)).val.num = 0 := by
  rw [unpack16, if_pos hz.1, if_pos hz.2]

theorem num_unpack32_of_zero {c : Word} {a : Single} (hz : SingleZero c a) : (unpack32 a (fpcrFz c)).val.num = 0 := by
  rw [unpack32, if_pos hz.1, if_pos hz.2]

theorem productUnits_of_zero {c : Word} {x y : Half} (h : HalfZero c x ∨ HalfZero c y) :
    productUnits x y (fpcrFz16 c) = 0 := by
  rcases h with hx | hy
  · rw [productUnits, num_unpack16_of_zero hx, zero_mul, zero_mul]
  · rw [productUnits, num_unpack16_of_zero hy, mul_zero, zero_mul]

theorem num_unpack16_of_not_zero {c : Word} {h : Half} (hfin : HalfFinite h) (hz : ¬ HalfZero c h) :
    (unpack16 h (fpcrFz16 c)).val.num = halfUnits h ∧ halfMagnitude h ≠ 0 := by
  refine ⟨?_, ?_⟩
  · rw [num_unpack16 hfin, if_neg fun hflush => hz ⟨hflush.1, .inr hflush.2⟩]
  · unfold halfMagnitude
    split
    · next hexp => exact fun hfrac => hz ⟨hexp, .inl hfrac⟩
    · positivity

theorem num_unpack32_of_not_zero {c : Word} {a : Single} (hfin : SingleFinite a) (hz : ¬ SingleZero c a) :
    (unpack32 a (fpcrFz c)).val.num = singleUnits a ∧ singleUnits a ≠ 0 := by
  refine ⟨?_, ?_⟩
  · rw [num_unpack32 hfin, if_neg fun hflush => hz ⟨hflush.1, .inr hflush.2⟩]
  · rw [Ne, singleUnits_eq_zero_iff]
    exact fun hzero => hz ⟨hzero.1, .inl hzero.2⟩

theorem natAbs_halfUnits (h : Half) : (halfUnits h).natAbs = halfMagnitude h := natAbs_withSign ..

theorem productUnits_ne_zero {c : Word} {x y : Half} (hx : HalfFinite x) (hy : HalfFinite y) (hxz : ¬ HalfZero c x)
    (hyz : ¬ HalfZero c y) : productUnits x y (fpcrFz16 c) ≠ 0 := by
  obtain ⟨hxnum, hxne⟩ := num_unpack16_of_not_zero hx hxz
  obtain ⟨hynum, hyne⟩ := num_unpack16_of_not_zero hy hyz
  rw [← natAbs_halfUnits, Int.natAbs_ne_zero] at hxne hyne
  rw [productUnits, hxnum, hynum]
  positivity

/-! ## The reference definition on finite operands -/

/-- The exact sum of the operands as FPCR has them flushed, in units of `2^-149`. -/
abbrev usedSum (a : Single) (x y : Half) (c : Word) : ℤ := sumUnits a x y (fpcrFz c) (fpcrFz16 c)

theorem usedProduct_eq {x y : Half} (c : Word) (hx : HalfFinite x) (hy : HalfFinite y) :
    usedHalf c x * usedHalf c y = productUnits x y (fpcrFz16 c) / 2 ^ 149 := by
  have hx' : usedHalf c x = _ := (toRat_unpack16 hx (fpcrFz16 c)).symm
  have hy' : usedHalf c y = _ := (toRat_unpack16 hy (fpcrFz16 c)).symm
  rw [hx', hy', Exact.toRat, Exact.toRat, scale_unpack16, scale_unpack16, productUnits]
  push_cast
  ring

/-- The addend and the product are both zeros, of one sign (R114). -/
abbrev LikeSignedZeros (a : Single) (x y : Half) (c : Word) : Prop :=
  SingleZero c a ∧ (HalfZero c x ∨ HalfZero c y) ∧ singleSign a = (halfSign x ^^ halfSign y)

section Finite

variable {a : Single} {x y : Half} (c : Word) (ha : SingleFinite a) (hx : HalfFinite x) (hy : HalfFinite y)
include ha hx hy

theorem exactSum_eq : exactSum a x y c = usedSum a x y c / 2 ^ 149 := by
  have ha' : usedSingle c a = _ := (toRat_unpack32 ha (fpcrFz c)).symm
  rw [exactSum, ha', usedProduct_eq c hx hy, Exact.toRat, scale_unpack32, usedSum, sumUnits]
  push_cast
  ring

theorem exactSum_eq_zero_iff : exactSum a x y c = 0 ↔ usedSum a x y c = 0 := by
  rw [exactSum_eq c ha hx hy, div_eq_zero_iff, Int.cast_eq_zero, or_iff_left (by norm_num)]

theorem fpMulAddReference_of_finite :
    fpMulAddReference a x y c =
      if LikeSignedZeros a x y c then signedZero (singleSign a)
      else if usedSum a x y c = 0 then signedZero (roundingMode c == .rm)
      else round32 ⟨usedSum a x y c, 149⟩ (roundingMode c) (fpcrFz c) := by
  rw [fpMulAddReference, mulAddUnpacked_of_finite _ _ (by simp [ha]) (by simp [hx]) (by simp [hy])
    (by simp [ha]) (by simp [hx]) (by simp [hy]), unpacked_sum]
  simp

theorem fpMulAddReference_of_sum_zero (hsum : usedSum a x y c = 0) :
    fpMulAddReference a x y c =
      if LikeSignedZeros a x y c then signedZero (singleSign a) else signedZero (roundingMode c == .rm) := by
  rw [fpMulAddReference_of_finite c ha hx hy, if_pos hsum]

theorem fpMulAddReference_of_sum_ne_zero (hsum : usedSum a x y c ≠ 0) :
    fpMulAddReference a x y c =
      packBits (decide (usedSum a x y c < 0))
        (roundedBits (roundingMode c) (decide (usedSum a x y c < 0)) (usedSum a x y c).natAbs) := by
  rw [fpMulAddReference_of_finite c ha hx hy, if_neg ?zeros, if_neg hsum, round32_sumUnits hsum _ _ id]
  rintro ⟨hza, hzp, -⟩
  exact hsum (by rw [usedSum, sumUnits, num_unpack32_of_zero hza, productUnits_of_zero hzp, add_zero])

/-- A sum that is a number of the format is not rounded. -/
theorem fpMulAddReference_of_representable {w : Single} (hsum : usedSum a x y c = singleUnits w)
    (hw : singleUnits w ≠ 0) : fpMulAddReference a x y c = w := by
  have hmag : magnitude (singleBits w) ≠ 0 := fun h => hw (by rw [singleUnits, h, withSign_zero])
  rw [fpMulAddReference_of_sum_ne_zero c ha hx hy (hsum ▸ hw), hsum, singleUnits, natAbs_withSign,
    roundedBits_magnitude, withSign_lt_zero hmag, packBits_singleBits]

end Finite

/-- Settles O46: a zero sum is left to the two branches about signs. -/
theorem zeroSumsTakeTheirSign : Obligations.ZeroSumsTakeTheirSign := by
  intro a x y c ha hx hy hsum
  rw [exactSum_eq_zero_iff c ha hx hy] at hsum
  rw [fpMulAddReference_of_sum_zero c ha hx hy hsum, signedZero_eq, signedZero_eq]
  simp

/-- Settles O47: a normal number is not zero, so the sum is not either and is not rounded. -/
theorem representableSumIsExact : Obligations.RepresentableSumIsExact := by
  intro a w x y c ha hx hy _ hnormal hsum
  rw [exactSum_eq c ha hx hy, singleValue_eq, div_left_inj' (by norm_num), Int.cast_inj] at hsum
  refine fpMulAddReference_of_representable c ha hx hy hsum ?_
  rw [Ne, singleUnits_eq_zero_iff]
  exact fun hzero => hnormal hzero.1

theorem halfFinite_of_zero {c : Word} {h : Half} (hz : HalfZero c h) : HalfFinite h := by
  rw [HalfFinite, hz.1]
  decide

/-- Settles O50: the product is zero, so the sum is the addend. -/
theorem zeroProductKeepsAddend : Obligations.ZeroProductKeepsAddend := by
  intro a x y c ha hza h
  have hfactors : (HalfZero c x ∨ HalfZero c y) ∧ HalfFinite x ∧ HalfFinite y := by
    rcases h with ⟨hx, hy⟩ | ⟨hx, hy⟩
    · exact ⟨.inl hx, halfFinite_of_zero hx, hy⟩
    · exact ⟨.inr hy, hx, halfFinite_of_zero hy⟩
  obtain ⟨hzero, hx, hy⟩ := hfactors
  obtain ⟨hnum, hne⟩ := num_unpack32_of_not_zero ha hza
  refine fpMulAddReference_of_representable c ha hx hy ?_ hne
  rw [usedSum, sumUnits, productUnits_of_zero hzero, add_zero, hnum]

/-! ## The exact product (R117) -/

/-- A number of at most 24 significant bits is in the sequence of magnitudes. -/
theorem exists_magnitude_eq {q : Nat} (hq : q ≠ 0) (hlt : q < 2 ^ 24) (j : Nat) : ∃ k, magnitude k = q * 2 ^ j := by
  induction j generalizing q with
  | zero =>
    by_cases h : q < 2 ^ 23
    · exact ⟨q, by rw [magnitude_of_lt h, Nat.pow_zero, Nat.mul_one]⟩
    · refine ⟨1 * 2 ^ 23 + (q - 2 ^ 23), ?_⟩
      rw [magnitude_of_normal one_ne_zero (by omega), Nat.add_sub_cancel' (by omega)]
      rfl
  | succ j ih =>
    by_cases h : q < 2 ^ 23
    · obtain ⟨k, hk⟩ := ih (q := q * 2) (by omega) (by omega)
      exact ⟨k, by rw [hk, Nat.pow_succ']; ring⟩
    · refine ⟨(j + 2) * 2 ^ 23 + (q - 2 ^ 23), ?_⟩
      rw [magnitude_of_normal (by omega) (by omega), Nat.add_sub_cancel' (by omega)]
      rfl

theorem halfMagnitude_eq_mul (h : Half) : ∃ q j, q < 2 ^ 11 ∧ halfMagnitude h = q * 2 ^ j := by
  have hfrac := halfFrac_lt h
  unfold halfMagnitude
  split
  · exact ⟨halfFrac h, 0, by omega, (Nat.mul_one _).symm⟩
  · exact ⟨1024 + halfFrac h, halfExp h - 1, by omega, rfl⟩

/-- The product of two mantissas of 11 bits has 22. -/
theorem exists_magnitude_eq_product {x y : Half} (hx : halfMagnitude x ≠ 0) (hy : halfMagnitude y ≠ 0) :
    ∃ k, magnitude k = halfMagnitude x * halfMagnitude y * 2 ^ 101 := by
  obtain ⟨q, i, hq, hqi⟩ := halfMagnitude_eq_mul x
  obtain ⟨p, j, hp, hpj⟩ := halfMagnitude_eq_mul y
  rw [hqi] at hx ⊢
  rw [hpj] at hy ⊢
  have hlt : q * p < 2 ^ 24 := (Nat.mul_lt_mul'' hq hp).trans (by norm_num)
  obtain ⟨k, hk⟩ := exists_magnitude_eq (mul_ne_zero (left_ne_zero_of_mul hx) (left_ne_zero_of_mul hy)) hlt
    (i + j + 101)
  exact ⟨k, by rw [hk, pow_add, pow_add]; ring⟩

theorem withSign_natAbs (n : ℤ) : withSign (decide (n < 0)) n.natAbs = n := by
  by_cases h : n < 0
  · simp [withSign, h, abs_of_neg]
  · simp [withSign, h, abs_of_nonneg (not_lt.1 h)]

/-- With a `+0` addend the sum is a number of the format, and a normal one because the product is at least `2^-48`. -/
theorem exists_usedSum_zero_addend {c : Word} {x y : Half} (hx : HalfFinite x) (hy : HalfFinite y)
    (hxz : ¬ HalfZero c x) (hyz : ¬ HalfZero c y) :
    usedSum 0#32 x y c = halfUnits x * halfUnits y * 2 ^ 101 ∧
      ∃ w, SingleFinite w ∧ singleExp w ≠ 0 ∧ usedSum 0#32 x y c = singleUnits w := by
  obtain ⟨hxnum, hxne⟩ := num_unpack16_of_not_zero hx hxz
  obtain ⟨hynum, hyne⟩ := num_unpack16_of_not_zero hy hyz
  have hprod : usedSum 0#32 x y c = productUnits x y (fpcrFz16 c) := by
    rw [usedSum, sumUnits, num_unpack32_of_zero ⟨by decide, .inl (by decide)⟩, zero_add]
  have hsum : usedSum 0#32 x y c = halfUnits x * halfUnits y * 2 ^ 101 := by
    rw [hprod, productUnits, hxnum, hynum]
  obtain ⟨k, hk⟩ := exists_magnitude_eq_product hxne hyne
  have habs : (usedSum 0#32 x y c).natAbs = magnitude k := by
    rw [hsum, hk, Int.natAbs_mul, Int.natAbs_mul, natAbs_halfUnits, natAbs_halfUnits]
    rfl
  have hnormal : 2 ^ 23 ≤ k := by
    have hlarge : 2 ^ 101 ≤ magnitude k :=
      habs ▸ hprod ▸ le_natAbs_productUnits (productUnits_ne_zero hx hy hxz hyz)
    by_contra hlt
    rw [magnitude_of_lt (not_le.1 hlt)] at hlarge
    omega
  have hfinite : k < infBits := by
    rw [← magnitude_strictMono.lt_iff_lt, ← habs]
    exact natAbs_sumUnits_lt_infBits ..
  have hbits : k < 2 ^ 31 := hfinite.trans (by decide)
  refine ⟨hsum, packBits (decide (usedSum 0#32 x y c < 0)) k, singleFinite_packBits _ hfinite, ?_, ?_⟩
  · rw [singleExp_packBits _ hbits]
    omega
  · rw [singleUnits_packBits _ hbits, ← habs, withSign_natAbs]

/-- Settles O48: the sum is the product alone, a normal number, so it is not rounded. -/
theorem productAloneIsExact : Obligations.ProductAloneIsExact := by
  intro x y c hx hy hxz hyz
  obtain ⟨hsum, w, hfin, hexp, hw⟩ := exists_usedSum_zero_addend hx hy hxz hyz
  have hne : singleUnits w ≠ 0 := fun h => hexp ((singleUnits_eq_zero_iff w).1 h).1
  rw [fpMulAddReference_of_representable c (by decide) hx hy hw hne]
  refine ⟨?_, hfin, hexp⟩
  rw [singleValue_eq, ← hw, hsum, halfValue_eq, halfValue_eq]
  push_cast
  ring

/-! ## No denormal result and no flushing on output (R119) -/

theorem lowerBits_le_roundedBits (mode : RoundingMode) (sign : Bool) (m : Nat) :
    lowerBits m ≤ roundedBits mode sign m := by
  unfold roundedBits
  split <;> omega

theorem roundedBits_le (mode : RoundingMode) (sign : Bool) (m : Nat) : roundedBits mode sign m ≤ lowerBits m + 1 := by
  unfold roundedBits
  split <;> omega

theorem roundedBits_lt {m : Nat} (h : m < magnitude infBits) (mode : RoundingMode) (sign : Bool) :
    roundedBits mode sign m < 2 ^ 31 := by
  have hle := roundedBits_le mode sign m
  rw [← lowerBits_lt_iff, infBits] at h
  omega

/-- Rounding keeps a normal magnitude normal. -/
theorem singleExp_rounded_ne_zero {m : Nat} (hlow : 2 ^ 23 ≤ m) (hhigh : m < magnitude infBits) (mode : RoundingMode)
    (sign : Bool) : singleExp (packBits sign (roundedBits mode sign m)) ≠ 0 := by
  have hbits : 2 ^ 23 ≤ lowerBits m := magnitude_le_iff.1 hlow
  have hle := lowerBits_le_roundedBits mode sign m
  rw [singleExp_packBits sign (roundedBits_lt hhigh mode sign)]
  omega

theorem two_zpow_le_abs_div {n : ℤ} (h : 2 ^ 77 ≤ n.natAbs) : (2 : ℚ) ^ (-72 : ℤ) ≤ |(n : ℚ) / 2 ^ 149| := by
  have hcast : ((2 ^ 77 : ℕ) : ℚ) ≤ (n.natAbs : ℚ) := Nat.cast_le.2 h
  rw [Nat.cast_natAbs, Int.cast_abs] at hcast
  rw [abs_div, abs_of_pos (show (0 : ℚ) < 2 ^ 149 by norm_num), le_div_iff₀ (by norm_num)]
  exact le_trans (by norm_num) hcast

theorem mulAddUnpacked_flush_irrelevant (a : Single) (x y : Half) (fz16 : Bool) (mode : RoundingMode) :
    mulAddUnpacked (unpack32 a true) (unpack16 x fz16) (unpack16 y fz16) mode true =
      mulAddUnpacked (unpack32 a true) (unpack16 x fz16) (unpack16 y fz16) mode false := by
  unfold mulAddUnpacked
  rw [unpacked_sum]
  by_cases hsum : sumUnits a x y true fz16 = 0
  · simp only [hsum, if_true]
  · simp only [round32_sumUnits hsum mode true id,
      round32_sumUnits hsum mode false fun h => absurd h Bool.false_ne_true]

/-- Settles O54: with a non-zero product the sum is at least `2^-72`, so a normal number; with `FZ` set every non-zero
sum is one, and rounding does not meet the flush. -/
theorem outputIsNeverFlushed : Obligations.OutputIsNeverFlushed := by
  refine ⟨fun a x y c ha hx hy hxz hyz hsum => ?_, mulAddUnpacked_flush_irrelevant⟩
  rw [Ne, exactSum_eq_zero_iff c ha hx hy] at hsum
  have hlarge := le_natAbs_sumUnits (productUnits_ne_zero hx hy hxz hyz) hsum
  refine ⟨?_, ?_⟩
  · rw [exactSum_eq c ha hx hy]
    exact two_zpow_le_abs_div hlarge
  · rw [fpMulAddReference_of_sum_ne_zero c ha hx hy hsum]
    exact singleExp_rounded_ne_zero (le_trans (by norm_num) hlarge) (natAbs_sumUnits_lt_infBits ..) _ _

end Sys2Proof.Machine
end

section
/-!
How near the result is to the exact sum: the directed modes, the mode to nearest, and overflow (41_fp_numerics.md R112,
R113, R119).
-/

namespace Sys2Proof.Machine

/-! ## The chosen neighbour -/

/-- The mode rounds numbers of this sign away from zero. -/
def awayFromZero (mode : RoundingMode) (sign : Bool) : Prop :=
  (mode = .rp ∧ sign = false) ∨ (mode = .rm ∧ sign = true)

/-- The mode rounds numbers of this sign toward zero. -/
def towardZero (mode : RoundingMode) (sign : Bool) : Prop :=
  mode = .rz ∨ (mode = .rp ∧ sign = true) ∨ (mode = .rm ∧ sign = false)

theorem roundedBits_of_towardZero {mode : RoundingMode} {sign : Bool} (h : towardZero mode sign) (m : Nat) :
    roundedBits mode sign m = lowerBits m := by
  rcases h with rfl | ⟨rfl, rfl⟩ | ⟨rfl, rfl⟩ <;> simp [roundedBits, roundUp]

theorem roundedBits_of_awayFromZero {mode : RoundingMode} {sign : Bool} (h : awayFromZero mode sign) (m : Nat) :
    roundedBits mode sign m = if magnitude (lowerBits m) = m then lowerBits m else lowerBits m + 1 := by
  have hle := magnitude_lowerBits_le m
  have hexact : m - magnitude (lowerBits m) = 0 ↔ magnitude (lowerBits m) = m := by omega
  rcases h with ⟨rfl, rfl⟩ | ⟨rfl, rfl⟩ <;> simp [roundedBits, roundUp, hexact]

/-- Away from zero the chosen number is the least one of the sequence that is not below the exact magnitude. -/
theorem le_magnitude_iff_of_awayFromZero {mode : RoundingMode} {sign : Bool} (h : awayFromZero mode sign) {m k : Nat} :
    m ≤ magnitude k ↔ roundedBits mode sign m ≤ k := by
  rw [roundedBits_of_awayFromZero h]
  split
  · next heq => exact heq ▸ magnitude_strictMono.le_iff_le.trans (by rw [lowerBits_magnitude])
  · next hne =>
    rw [Nat.succ_le_iff, lowerBits_lt_iff]
    have hk : magnitude k ≠ m := fun hk => hne (by rw [← hk, lowerBits_magnitude])
    omega

/-- The distance of a number of the sequence from the exact magnitude. -/
def distance (m k : Nat) : Nat := ((magnitude k : ℤ) - m).natAbs

theorem roundedBits_rn (sign : Bool) (m : Nat) :
    roundedBits .rn sign m =
      if spacing (lowerBits m) < 2 * (m - magnitude (lowerBits m)) ∨
        (2 * (m - magnitude (lowerBits m)) = spacing (lowerBits m) ∧ lowerBits m % 2 = 1)
      then lowerBits m + 1 else lowerBits m := by
  simp [roundedBits, roundUp]

/-- To nearest the chosen number is at least as near as every other, and even where another is as near. -/
theorem distance_roundedBits_rn (sign : Bool) (m j : Nat) :
    distance m (roundedBits .rn sign m) ≤ distance m j ∧
      (distance m (roundedBits .rn sign m) = distance m j → j ≠ roundedBits .rn sign m →
        roundedBits .rn sign m % 2 = 0) := by
  have hlow := magnitude_lowerBits_le m
  have hhigh := lt_magnitude_lowerBits_succ m
  have hsucc := magnitude_succ (lowerBits m)
  have hj : magnitude j < magnitude (lowerBits m) ∨ j = lowerBits m ∨ j = lowerBits m + 1 ∨
      magnitude (lowerBits m + 1) < magnitude j := by
    rw [magnitude_strictMono.lt_iff_lt, magnitude_strictMono.lt_iff_lt]
    omega
  rw [roundedBits_rn, distance, distance]
  rcases hj with hj | rfl | rfl | hj
  · split <;> omega
  · split <;> omega
  · split <;> omega
  · split <;> omega

/-! ## Values along a sign -/

/-- A number as it is seen from zero in the direction of a sign. -/
def along (sign : Bool) (z : ℤ) : ℤ := if sign then -z else z

@[simp] theorem along_true (z : ℤ) : along true z = -z := rfl
@[simp] theorem along_false (z : ℤ) : along false z = z := rfl

theorem along_withSign (sign : Bool) (m : Nat) : along sign (withSign sign m) = m := by
  cases sign <;> simp [along, withSign]

theorem along_withSign_cases (sign sign' : Bool) (m : Nat) :
    along sign (withSign sign' m) = m ∨ along sign (withSign sign' m) = -m := by
  cases sign <;> cases sign' <;> simp [withSign]

theorem along_singleUnits (sign : Bool) (w : Single) :
    along sign (singleUnits w) = magnitude (singleBits w) ∨ along sign (singleUnits w) = -magnitude (singleBits w) :=
  along_withSign_cases ..

/-- The values of two elements, or of a sum and an element, compare as their whole numbers of units. -/
theorem units_le_iff {p q : ℤ} : (p : ℚ) / 2 ^ 149 ≤ q / 2 ^ 149 ↔ p ≤ q := by
  rw [div_le_div_iff_of_pos_right (by norm_num), Int.cast_le]

theorem units_lt_iff {p q : ℤ} : (p : ℚ) / 2 ^ 149 < q / 2 ^ 149 ↔ p < q := by
  rw [div_lt_div_iff_of_pos_right (by norm_num), Int.cast_lt]

theorem abs_units (p : ℤ) : |(p : ℚ) / 2 ^ 149| = ((p.natAbs : ℤ) : ℚ) / 2 ^ 149 := by
  rw [abs_div, abs_of_pos (show (0 : ℚ) < 2 ^ 149 by norm_num), Int.natCast_natAbs, Int.cast_abs]

/-! ## Directed rounding (R112) -/

theorem packBits_of_towardZero {mode : RoundingMode} {sign : Bool} (h : towardZero mode sign) {m : Nat}
    (hmax : m < magnitude infBits) :
    SingleFinite (packBits sign (roundedBits mode sign m)) ∧
      along sign (singleUnits (packBits sign (roundedBits mode sign m))) ≤ m ∧
      ∀ w, along sign (singleUnits w) ≤ m →
        along sign (singleUnits w) ≤ along sign (singleUnits (packBits sign (roundedBits mode sign m))) := by
  have hfin : lowerBits m < infBits := lowerBits_lt_iff.2 hmax
  rw [roundedBits_of_towardZero h, singleUnits_packBits sign (hfin.trans (by decide)), along_withSign]
  refine ⟨singleFinite_packBits sign hfin, Int.ofNat_le.2 (magnitude_lowerBits_le m), fun w hw => ?_⟩
  rcases along_singleUnits sign w with hpos | hneg
  · rw [hpos, Nat.cast_le, magnitude_le_iff] at hw
    rw [hpos, Nat.cast_le]
    exact magnitude_strictMono.monotone hw
  · omega

theorem packBits_of_awayFromZero {mode : RoundingMode} {sign : Bool} (h : awayFromZero mode sign) {m : Nat}
    (hm : 0 < m) (hmax : m < magnitude infBits) :
    (packBits sign (roundedBits mode sign m) = packBits sign infBits ∧
      ∀ w, SingleFinite w → along sign (singleUnits w) < m) ∨
    (SingleFinite (packBits sign (roundedBits mode sign m)) ∧
      m ≤ along sign (singleUnits (packBits sign (roundedBits mode sign m))) ∧
      ∀ w, m ≤ along sign (singleUnits w) →
        along sign (singleUnits (packBits sign (roundedBits mode sign m))) ≤ along sign (singleUnits w)) := by
  have hle : roundedBits mode sign m ≤ infBits := (le_magnitude_iff_of_awayFromZero h).1 hmax.le
  have hreach (w : Single) (hw : m ≤ along sign (singleUnits w)) :
      along sign (singleUnits w) = magnitude (singleBits w) ∧ roundedBits mode sign m ≤ singleBits w := by
    rcases along_singleUnits sign w with hpos | hneg
    · rw [hpos, Nat.cast_le, le_magnitude_iff_of_awayFromZero h] at hw
      exact ⟨hpos, hw⟩
    · omega
  rcases hle.eq_or_lt with heq | hfin
  · refine .inl ⟨by rw [heq], fun w hw => not_le.1 fun hmw => ?_⟩
    have hbits := (hreach w hmw).2
    have hw := singleBits_lt_infBits hw
    omega
  · right
    rw [singleUnits_packBits sign (hfin.trans (by decide)), along_withSign]
    refine ⟨singleFinite_packBits sign hfin, ?_, fun w hw => ?_⟩
    · exact Int.ofNat_le.2 ((le_magnitude_iff_of_awayFromZero h).2 le_rfl)
    · obtain ⟨hpos, hbits⟩ := hreach w hw
      rw [hpos, Nat.cast_le]
      exact magnitude_strictMono.monotone hbits

section Finite

variable {a : Single} {x y : Half} {c : Word} (ha : SingleFinite a) (hx : HalfFinite x) (hy : HalfFinite y)
include ha hx hy

theorem fpMulAddReference_of_sum_along {sign : Bool} (h : 0 < along sign (usedSum a x y c)) :
    fpMulAddReference a x y c = packBits sign (roundedBits (roundingMode c) sign (usedSum a x y c).natAbs) ∧
      ((usedSum a x y c).natAbs : ℤ) = along sign (usedSum a x y c) ∧
      (usedSum a x y c).natAbs < magnitude infBits := by
  refine ⟨?_, ?_, natAbs_sumUnits_lt_infBits ..⟩
  · cases sign with
    | false =>
      have hpos : 0 < usedSum a x y c := h
      rw [fpMulAddReference_of_sum_ne_zero c ha hx hy hpos.ne', decide_eq_false hpos.not_gt]
    | true =>
      have hneg : usedSum a x y c < 0 := neg_pos.1 h
      rw [fpMulAddReference_of_sum_ne_zero c ha hx hy hneg.ne, decide_eq_true hneg]
  · cases sign with
    | false => exact Int.natAbs_of_nonneg h.le
    | true => exact Int.ofNat_natAbs_of_nonpos (neg_pos.1 h).le

/-- A sum of a sign that the mode rounds toward zero. -/
theorem fpMulAddReference_of_towardZero {sign : Bool} (hmode : towardZero (roundingMode c) sign)
    (hsum : 0 < along sign (usedSum a x y c)) :
    SingleFinite (fpMulAddReference a x y c) ∧
      along sign (singleUnits (fpMulAddReference a x y c)) ≤ along sign (usedSum a x y c) ∧
      ∀ w, along sign (singleUnits w) ≤ along sign (usedSum a x y c) →
        along sign (singleUnits w) ≤ along sign (singleUnits (fpMulAddReference a x y c)) := by
  obtain ⟨hv, habs, hmax⟩ := fpMulAddReference_of_sum_along ha hx hy hsum
  rw [hv, ← habs]
  exact packBits_of_towardZero hmode hmax

/-- A sum of a sign that the mode rounds away from zero. -/
theorem fpMulAddReference_of_awayFromZero {sign : Bool} (hmode : awayFromZero (roundingMode c) sign)
    (hsum : 0 < along sign (usedSum a x y c)) :
    (fpMulAddReference a x y c = packBits sign infBits ∧
      ∀ w, SingleFinite w → along sign (singleUnits w) < along sign (usedSum a x y c)) ∨
    (SingleFinite (fpMulAddReference a x y c) ∧
      along sign (usedSum a x y c) ≤ along sign (singleUnits (fpMulAddReference a x y c)) ∧
      ∀ w, along sign (usedSum a x y c) ≤ along sign (singleUnits w) →
        along sign (singleUnits (fpMulAddReference a x y c)) ≤ along sign (singleUnits w)) := by
  obtain ⟨hv, habs, hmax⟩ := fpMulAddReference_of_sum_along ha hx hy hsum
  rw [hv, ← habs]
  exact packBits_of_awayFromZero hmode (by omega) hmax

/-- Toward zero the result is the last number of the sequence not above the sum's magnitude. -/
theorem fpMulAddReference_of_rz (hmode : roundingMode c = .rz) (hsum : usedSum a x y c ≠ 0) :
    SingleFinite (fpMulAddReference a x y c) ∧
      singleUnits (fpMulAddReference a x y c) =
        withSign (decide (usedSum a x y c < 0)) (magnitude (lowerBits (usedSum a x y c).natAbs)) := by
  have hfin : lowerBits (usedSum a x y c).natAbs < infBits := lowerBits_lt_iff.2 (natAbs_sumUnits_lt_infBits ..)
  rw [fpMulAddReference_of_sum_ne_zero c ha hx hy hsum, roundedBits_of_towardZero (.inl hmode)]
  exact ⟨singleFinite_packBits _ hfin, singleUnits_packBits _ (hfin.trans (by decide))⟩

end Finite

theorem withSign_mul_withSign_nonneg (sign : Bool) (m m' : Nat) : 0 ≤ withSign sign m * withSign sign m' := by
  cases sign <;> simp [withSign] <;> positivity

theorem natAbs_singleUnits (w : Single) : (singleUnits w).natAbs = magnitude (singleBits w) := natAbs_withSign ..

/-- Settles O52: toward zero and toward the infinity of the other sign the result is the last number of the sequence
before the sum, toward the infinity of the sum's sign the first one after it. -/
theorem directedRoundingIsTight : Obligations.DirectedRoundingIsTight := by
  intro a x y c ha hx hy hsum
  rw [Ne, exactSum_eq_zero_iff c ha hx hy] at hsum
  simp only [exactSum_eq c ha hx hy, singleValue_eq, units_le_iff, units_lt_iff, abs_units, Nat.cast_le]
  refine ⟨fun hmode => ?_, fun hmode => ?_, fun hmode => ?_⟩
  · obtain ⟨hfin, hunits⟩ := fpMulAddReference_of_rz ha hx hy hmode hsum
    have hnonneg := withSign_mul_withSign_nonneg (decide (usedSum a x y c < 0))
      (magnitude (lowerBits (usedSum a x y c).natAbs)) (usedSum a x y c).natAbs
    rw [withSign_natAbs, ← hunits] at hnonneg
    refine ⟨hfin, ?_, ?_, fun w _ hw => ?_⟩
    · rw [div_mul_div_comm, ← Int.cast_mul]
      positivity
    · rw [hunits, natAbs_withSign]
      exact magnitude_lowerBits_le _
    · rw [natAbs_singleUnits, magnitude_le_iff] at hw
      rw [hunits, natAbs_withSign, natAbs_singleUnits]
      exact magnitude_strictMono.monotone hw
  · rcases lt_or_gt_of_ne hsum with hneg | hpos
    · obtain ⟨hfin, hle, hbest⟩ :=
        fpMulAddReference_of_towardZero ha hx hy (.inr (.inl ⟨hmode, rfl⟩)) (neg_pos.2 hneg)
      exact .inr ⟨hfin, neg_le_neg_iff.1 hle, fun w _ hw => neg_le_neg_iff.1 (hbest w (neg_le_neg hw))⟩
    · rcases fpMulAddReference_of_awayFromZero ha hx hy (.inl ⟨hmode, rfl⟩) hpos with
        ⟨hinf, hall⟩ | ⟨hfin, hle, hbest⟩
      · exact .inl ⟨hinf, hall⟩
      · exact .inr ⟨hfin, hle, fun w _ hw => hbest w hw⟩
  · rcases lt_or_gt_of_ne hsum with hneg | hpos
    · rcases fpMulAddReference_of_awayFromZero ha hx hy (.inr ⟨hmode, rfl⟩) (neg_pos.2 hneg) with
        ⟨hinf, hall⟩ | ⟨hfin, hle, hbest⟩
      · exact .inl ⟨hinf, fun w hw => neg_lt_neg_iff.1 (hall w hw)⟩
      · exact .inr ⟨hfin, neg_le_neg_iff.1 hle, fun w _ hw => neg_le_neg_iff.1 (hbest w (neg_le_neg hw))⟩
    · obtain ⟨hfin, hle, hbest⟩ := fpMulAddReference_of_towardZero ha hx hy (.inr (.inr ⟨hmode, rfl⟩)) hpos
      exact .inr ⟨hfin, hle, fun w _ hw => hbest w hw⟩

/-! ## Rounding to nearest (R112, R113) -/

/-- The overflow threshold is beyond reach of the mode to nearest: the product is far below half the last spacing. -/
theorem roundedBits_rn_lt_infBits (sign : Bool) {m : Nat} (h : m < magnitude (infBits - 1) + 2 ^ 181) :
    roundedBits .rn sign m < infBits := by
  have hle := roundedBits_le .rn sign m
  have hmax : lowerBits m < infBits := by
    rw [lowerBits_lt_iff, magnitude_infBits_eq]
    exact h.trans (Nat.add_lt_add_left (by norm_num) _)
  by_cases hlast : lowerBits m = infBits - 1
  · rw [roundedBits_rn, hlast, spacing_largest, if_neg]
    · decide
    · generalize magnitude (infBits - 1) = largest at h
      omega
  · unfold infBits at *
    omega

theorem natAbs_withSign_sub_same (sign : Bool) (k m : Nat) :
    (withSign sign k - withSign sign m).natAbs = ((k : ℤ) - m).natAbs := by
  cases sign with
  | false => rfl
  | true => simp only [withSign, if_true]; omega

theorem natAbs_withSign_sub_of_ne {sign sign' : Bool} (h : sign' ≠ sign) (k m : Nat) :
    m ≤ (withSign sign' k - withSign sign m).natAbs := by
  obtain rfl : sign' = !sign := Bool.eq_not.2 h
  cases sign <;> simp [withSign] <;> omega

theorem distance_zero (m : Nat) : distance m 0 = m := by
  rw [distance, magnitude_of_lt (by decide)]
  omega

theorem roundedBits_rn_nearest (sign : Bool) (m : Nat) (w : Single) :
    distance m (roundedBits .rn sign m) ≤ (singleUnits w - withSign sign m).natAbs ∧
      (distance m (roundedBits .rn sign m) = (singleUnits w - withSign sign m).natAbs →
        singleUnits w ≠ withSign sign (magnitude (roundedBits .rn sign m)) → roundedBits .rn sign m % 2 = 0) := by
  by_cases hs : singleSign w = sign
  · obtain ⟨hle, htie⟩ := distance_roundedBits_rn sign m (singleBits w)
    rw [singleUnits, hs, natAbs_withSign_sub_same]
    exact ⟨hle, fun heq hne => htie heq fun hbits => hne (by rw [hbits])⟩
  · obtain ⟨hle, htie⟩ := distance_roundedBits_rn sign m 0
    have hfar := natAbs_withSign_sub_of_ne hs (magnitude (singleBits w)) m
    rw [distance_zero] at hle htie
    rw [singleUnits]
    refine ⟨hle.trans hfar, fun heq _ => ?_⟩
    by_cases hzero : 0 = roundedBits .rn sign m
    · rw [← hzero]
    · exact htie (by omega) hzero

theorem units_inj {p q : ℤ} : (p : ℚ) / 2 ^ 149 = q / 2 ^ 149 ↔ p = q := by
  rw [div_left_inj' (by norm_num), Int.cast_inj]

/-- Settles O53: the neighbour nearer to the sum, the even one of two as near. -/
theorem nearestRoundingIsNearest : Obligations.NearestRoundingIsNearest := by
  intro a x y c ha hx hy hsum hmode
  rw [Ne, exactSum_eq_zero_iff c ha hx hy] at hsum
  simp only [exactSum_eq c ha hx hy, singleValue_eq, ← sub_div, ← Int.cast_sub, abs_units, units_le_iff, units_inj,
    Nat.cast_le, Nat.cast_inj, ne_eq]
  rw [fpMulAddReference_of_sum_ne_zero c ha hx hy hsum, hmode]
  have hfin := roundedBits_rn_lt_infBits (decide (usedSum a x y c < 0))
    (natAbs_sumUnits_lt a x y (fpcrFz c) (fpcrFz16 c))
  have hnear := roundedBits_rn_nearest (decide (usedSum a x y c < 0)) (usedSum a x y c).natAbs
  simp only [distance, ← natAbs_withSign_sub_same (decide (usedSum a x y c < 0)), withSign_natAbs] at hnear
  rw [singleUnits_packBits _ (hfin.trans (by decide))]
  refine ⟨singleFinite_packBits _ hfin, fun w _ => ⟨(hnear w).1, fun heq hne => ?_⟩⟩
  rw [packBits, singleFrac_packSingle, Nat.mod_mod_of_dvd _ (by decide)]
  exact (hnear w).2 heq hne

/-! ## Overflow (R112, R119) -/

theorem singleInf_packBits_iff (sign : Bool) {k : Nat} (h : k ≤ infBits) :
    SingleInf (packBits sign k) ↔ k = infBits := by
  unfold infBits at *
  rw [SingleInf, singleExp_packBits sign (by omega), packBits, singleFrac_packSingle]
  omega

theorem singleFinite_signedZero (sign : Bool) : SingleFinite (signedZero sign) := by
  cases sign <;> decide

theorem along_withSign_of_ne {sign sign' : Bool} (h : sign' ≠ sign) (m : Nat) :
    along sign (withSign sign' m) = -m := by
  obtain rfl : sign' = !sign := Bool.eq_not.2 h
  cases sign <;> simp [withSign]

theorem magnitude_largest_eq : magnitude (infBits - 2) + 2 ^ 253 = magnitude (infBits - 1) := by
  have hsucc : infBits - 1 = infBits - 2 + 1 := by decide
  have hspacing : spacing (infBits - 2) = 2 ^ 253 := by
    rw [spacing, show (infBits - 2) / 2 ^ 23 - 1 = 253 by decide]
  rw [hsucc, magnitude_succ, hspacing]

theorem num_unpack32_largest (sign : Bool) (fz : Bool) :
    (unpack32 (packBits sign (infBits - 1)) fz).val.num = withSign sign (magnitude (infBits - 1)) := by
  have hexp : singleExp (packBits sign (infBits - 1)) ≠ 0 := by
    rw [singleExp_packBits sign (by decide)]
    decide
  rw [num_unpack32 (singleFinite_packBits sign (by decide)), if_neg fun h => hexp h.1,
    singleUnits_packBits sign (by decide)]

/-- Along a sign every addend but the largest number of that sign is at least the last spacing below it. -/
theorem along_num_unpack32_le {sign : Bool} {a : Single} (ha : a ≠ packBits sign (infBits - 1)) (fz : Bool) :
    along sign (unpack32 a fz).val.num + 2 ^ 253 ≤ magnitude (infBits - 1) := by
  have hlargest : ((magnitude (infBits - 2) + 2 ^ 253 : Nat) : ℤ) = magnitude (infBits - 1) :=
    congrArg _ magnitude_largest_eq
  rw [← hlargest]
  push_cast
  refine add_le_add_left ?_ _
  rcases num_unpack32_cases a fz with h | ⟨hfin, -, h⟩
  · rw [h, along]
    simp
  · rw [h, singleUnits]
    by_cases hs : singleSign a = sign
    · have hbits : singleBits a ≠ infBits - 1 := fun hb => ha (by rw [← hb, ← hs, packBits_singleBits])
      have hlt := singleBits_lt_infBits hfin
      rw [hs, along_withSign, Nat.cast_le, magnitude_strictMono.le_iff_le]
      unfold infBits at *
      omega
    · rw [along_withSign_of_ne hs]
      omega

theorem along_not (sign : Bool) (z : ℤ) : along (!sign) z = -along sign z := by
  cases sign <;> simp

theorem along_eq_zero_iff (sign : Bool) (z : ℤ) : along sign z = 0 ↔ z = 0 := by
  cases sign <;> simp

theorem towardZero_not_of_awayFromZero {mode : RoundingMode} {sign : Bool} (h : awayFromZero mode sign) :
    towardZero mode (!sign) := by
  rcases h with ⟨rfl, rfl⟩ | ⟨rfl, rfl⟩
  · exact .inr (.inl ⟨rfl, rfl⟩)
  · exact .inr (.inr ⟨rfl, rfl⟩)

theorem along_add (sign : Bool) (p q : ℤ) : along sign (p + q) = along sign p + along sign q := by
  cases sign with
  | false => rfl
  | true => exact neg_add p q

/-- A sum beyond the largest number of a sign has that number as its addend and a product of that sign (R119 (d)). -/
theorem largest_lt_along_usedSum_iff (sign : Bool) (a : Single) (x y : Half) (c : Word) :
    (magnitude (infBits - 1) : ℤ) < along sign (usedSum a x y c) ↔
      a = packBits sign (infBits - 1) ∧ 0 < along sign (productUnits x y (fpcrFz16 c)) := by
  rw [usedSum, sumUnits, along_add]
  by_cases ha : a = packBits sign (infBits - 1)
  · rw [ha, num_unpack32_largest, along_withSign]
    simp
  · have hgap := along_num_unpack32_le ha (fpcrFz c)
    have hprod := natAbs_productUnits_lt x y (fpcrFz16 c)
    have halong : along sign (productUnits x y (fpcrFz16 c)) ≤ (productUnits x y (fpcrFz16 c)).natAbs := by
      cases sign <;> simp only [along_true, along_false] <;> omega
    simp only [ha, false_and, iff_false, not_lt]
    omega

section Finite

variable {a : Single} {x y : Half} {c : Word} (ha : SingleFinite a) (hx : HalfFinite x) (hy : HalfFinite y)
include ha hx hy

theorem singleFinite_of_sum_zero (hsum : usedSum a x y c = 0) : SingleFinite (fpMulAddReference a x y c) := by
  rw [fpMulAddReference_of_sum_zero c ha hx hy hsum]
  split <;> exact singleFinite_signedZero _

/-- A result of finite operands is finite, or the infinity after the largest number. -/
theorem fpMulAddReference_finite_or_infinity :
    SingleFinite (fpMulAddReference a x y c) ∨ ∃ sign, fpMulAddReference a x y c = packBits sign infBits := by
  by_cases hsum : usedSum a x y c = 0
  · exact .inl (singleFinite_of_sum_zero ha hx hy hsum)
  · have hmax : lowerBits (usedSum a x y c).natAbs < infBits := lowerBits_lt_iff.2 (natAbs_sumUnits_lt_infBits ..)
    have hle := roundedBits_le (roundingMode c) (decide (usedSum a x y c < 0)) (usedSum a x y c).natAbs
    rw [fpMulAddReference_of_sum_ne_zero c ha hx hy hsum]
    rcases (hle.trans hmax).eq_or_lt with heq | hlt
    · exact .inr ⟨_, by rw [heq]⟩
    · exact .inl (singleFinite_packBits _ hlt)

theorem singleFinite_fpMulAddReference (hmode : roundingMode c = .rn ∨ roundingMode c = .rz) :
    SingleFinite (fpMulAddReference a x y c) := by
  by_cases hsum : usedSum a x y c = 0
  · exact singleFinite_of_sum_zero ha hx hy hsum
  · rcases hmode with hrn | hrz
    · rw [fpMulAddReference_of_sum_ne_zero c ha hx hy hsum, hrn]
      exact singleFinite_packBits _ (roundedBits_rn_lt_infBits _ (natAbs_sumUnits_lt ..))
    · exact (fpMulAddReference_of_rz ha hx hy hrz hsum).1

/-- In a mode that rounds numbers of a sign away from zero, overflow is a sum beyond the largest number of that sign. -/
theorem singleInf_fpMulAddReference_iff {sign : Bool} (hmode : awayFromZero (roundingMode c) sign) :
    SingleInf (fpMulAddReference a x y c) ↔ (magnitude (infBits - 1) : ℤ) < along sign (usedSum a x y c) := by
  by_cases hpos : 0 < along sign (usedSum a x y c)
  · obtain ⟨hv, habs, hmax⟩ := fpMulAddReference_of_sum_along ha hx hy hpos
    have hle := (le_magnitude_iff_of_awayFromZero hmode).1 hmax.le
    rw [hv, singleInf_packBits_iff sign hle, ← habs, Nat.cast_lt, ← not_le, le_magnitude_iff_of_awayFromZero hmode]
    unfold infBits at *
    omega
  · have hfin : SingleFinite (fpMulAddReference a x y c) := by
      by_cases hsum : usedSum a x y c = 0
      · exact singleFinite_of_sum_zero ha hx hy hsum
      · refine (fpMulAddReference_of_towardZero ha hx hy (towardZero_not_of_awayFromZero hmode) ?_).1
        rw [along_not]
        have hne : along sign (usedSum a x y c) ≠ 0 := mt (along_eq_zero_iff sign _).1 hsum
        omega
    refine iff_of_false (fun hinf => hfin hinf.1) ?_
    omega

end Finite

theorem usedProduct_pos_iff {x y : Half} (c : Word) (hx : HalfFinite x) (hy : HalfFinite y) :
    0 < usedHalf c x * usedHalf c y ↔ 0 < productUnits x y (fpcrFz16 c) := by
  rw [usedProduct_eq c hx hy, div_pos_iff_of_pos_right (by norm_num), Int.cast_pos]

theorem usedProduct_neg_iff {x y : Half} (c : Word) (hx : HalfFinite x) (hy : HalfFinite y) :
    usedHalf c x * usedHalf c y < 0 ↔ productUnits x y (fpcrFz16 c) < 0 := by
  rw [usedProduct_eq c hx hy, div_lt_iff₀ (by norm_num), zero_mul, Int.cast_lt_zero]

/-- Settles O55: a result is finite or the infinity that follows the largest number, and a sum passes the largest number
only from it. -/
theorem overflowOnlyFromTheLargestAddend : Obligations.OverflowOnlyFromTheLargestAddend := by
  intro a x y c ha hx hy
  refine ⟨fun hnan => ?_, singleFinite_fpMulAddReference ha hx hy, fun hmode => ?_, fun hmode => ?_⟩
  · rcases fpMulAddReference_finite_or_infinity (c := c) ha hx hy with hfin | ⟨sign, hinf⟩
    · exact hfin hnan.1
    · rw [hinf] at hnan
      exact hnan.2 ((singleInf_packBits_iff sign le_rfl).2 rfl).2
  · rw [singleInf_fpMulAddReference_iff ha hx hy (.inl ⟨hmode, rfl⟩), largest_lt_along_usedSum_iff,
      usedProduct_pos_iff c hx hy]
    rfl
  · rw [singleInf_fpMulAddReference_iff ha hx hy (.inr ⟨hmode, rfl⟩), largest_lt_along_usedSum_iff,
      usedProduct_neg_iff c hx hy, along_true, neg_pos]
    rfl

end Sys2Proof.Machine
end

section
/-!
The sign symmetry of the two modes that treat both signs alike (41_fp_numerics.md R117, R114, R115).
-/

namespace Sys2Proof.Machine

/-! ## The fields of a negated element -/

theorem getLsbD_negSingle (a : Single) (j : Nat) : (negSingle a).getLsbD j = (a.getLsbD j ^^ decide (j = 31)) := by
  rw [negSingle, BitVec.getLsbD_xor, show (0x80000000#32 : Single) = BitVec.twoPow 32 31 by decide,
    BitVec.getLsbD_twoPow]
  simp [eq_comm]

theorem getLsbD_negHalf (h : Half) (j : Nat) : (negHalf h).getLsbD j = (h.getLsbD j ^^ decide (j = 15)) := by
  rw [negHalf, BitVec.getLsbD_xor, show (0x8000#16 : Half) = BitVec.twoPow 16 15 by decide,
    BitVec.getLsbD_twoPow]
  simp [eq_comm]

@[simp] theorem singleSign_negSingle (a : Single) : singleSign (negSingle a) = !singleSign a := by
  rw [singleSign, getLsbD_negSingle, decide_eq_true rfl, Bool.xor_true, singleSign]

@[simp] theorem halfSign_negHalf (h : Half) : halfSign (negHalf h) = !halfSign h := by
  rw [halfSign, getLsbD_negHalf, decide_eq_true rfl, Bool.xor_true, halfSign]

/-- A field below the sign bit is not negated. -/
theorem extractLsb'_negSingle (a : Single) {lo len : Nat} (h : lo + len ≤ 31) :
    (negSingle a).extractLsb' lo len = a.extractLsb' lo len := by
  apply BitVec.eq_of_getLsbD_eq
  intro j hj
  simp [BitVec.getLsbD_extractLsb', getLsbD_negSingle, show lo + j ≠ 31 by omega]

theorem extractLsb'_negHalf (h : Half) {lo len : Nat} (hlen : lo + len ≤ 15) :
    (negHalf h).extractLsb' lo len = h.extractLsb' lo len := by
  apply BitVec.eq_of_getLsbD_eq
  intro j hj
  simp [BitVec.getLsbD_extractLsb', getLsbD_negHalf, show lo + j ≠ 15 by omega]

@[simp] theorem singleExp_negSingle (a : Single) : singleExp (negSingle a) = singleExp a := by
  rw [singleExp, extractLsb'_negSingle a (by decide), singleExp]

@[simp] theorem singleFrac_negSingle (a : Single) : singleFrac (negSingle a) = singleFrac a := by
  rw [singleFrac, extractLsb'_negSingle a (by decide), singleFrac]

@[simp] theorem halfExp_negHalf (h : Half) : halfExp (negHalf h) = halfExp h := by
  rw [halfExp, extractLsb'_negHalf h (by decide), halfExp]

@[simp] theorem halfFrac_negHalf (h : Half) : halfFrac (negHalf h) = halfFrac h := by
  rw [halfFrac, extractLsb'_negHalf h (by decide), halfFrac]

theorem halfNaN_negHalf (h : Half) : HalfNaN (negHalf h) = HalfNaN h := by
  rw [HalfNaN, halfExp_negHalf, halfFrac_negHalf]

theorem halfInf_negHalf (h : Half) : HalfInf (negHalf h) = HalfInf h := by
  rw [HalfInf, halfExp_negHalf, halfFrac_negHalf]

theorem halfZero_negHalf (c : Word) (h : Half) : HalfZero c (negHalf h) = HalfZero c h := by
  rw [HalfZero, halfExp_negHalf, halfFrac_negHalf]

theorem singleNaN_negSingle (a : Single) : SingleNaN (negSingle a) = SingleNaN a := by
  rw [SingleNaN, singleExp_negSingle, singleFrac_negSingle]

theorem singleInf_negSingle (a : Single) : SingleInf (negSingle a) = SingleInf a := by
  rw [SingleInf, singleExp_negSingle, singleFrac_negSingle]

theorem likeSignedZeros_neg (a : Single) (x y : Half) (c : Word) :
    LikeSignedZeros (negSingle a) (negHalf x) y c ↔ LikeSignedZeros a x y c := by
  simp only [LikeSignedZeros, SingleZero, HalfZero, singleExp_negSingle, singleFrac_negSingle, singleSign_negSingle,
    halfExp_negHalf, halfFrac_negHalf, halfSign_negHalf, Bool.not_xor, Bool.not_inj_iff]

theorem negSingle_packBits (sign : Bool) (k : Nat) : negSingle (packBits sign k) = packBits (!sign) k := by
  apply single_ext <;> simp [packBits]

/-! ## The negated sum -/

theorem withSign_not (sign : Bool) (m : Nat) : withSign (!sign) m = -withSign sign m := by
  cases sign <;> simp [withSign]

theorem signed_not (sign : Bool) (m scale : Nat) :
    (Exact.signed (!sign) m scale).num = -(Exact.signed sign m scale).num := withSign_not sign m

theorem num_unpack32_neg (a : Single) (fz : Bool) :
    (unpack32 (negSingle a) fz).val.num = -(unpack32 a fz).val.num := by
  unfold unpack32
  simp only [singleExp_negSingle, singleFrac_negSingle, singleSign_negSingle]
  split_ifs <;> simp [signed_not]

theorem num_unpack16_neg (h : Half) (fz16 : Bool) :
    (unpack16 (negHalf h) fz16).val.num = -(unpack16 h fz16).val.num := by
  unfold unpack16
  simp only [halfExp_negHalf, halfFrac_negHalf, halfSign_negHalf]
  split_ifs <;> simp [signed_not]

theorem usedSum_neg (a : Single) (x y : Half) (c : Word) :
    usedSum (negSingle a) (negHalf x) y c = -usedSum a x y c := by
  rw [usedSum, usedSum, sumUnits, sumUnits, productUnits, productUnits, num_unpack32_neg, num_unpack16_neg]
  ring

/-- To nearest and toward zero a magnitude is rounded alike for both signs. -/
theorem roundedBits_not {mode : RoundingMode} (h : mode = .rn ∨ mode = .rz) (sign : Bool) (m : Nat) :
    roundedBits mode (!sign) m = roundedBits mode sign m := by
  rcases h with rfl | rfl <;> rfl

theorem decide_neg_lt_zero {n : ℤ} (h : n ≠ 0) : decide (-n < 0) = !decide (n < 0) := by
  rw [← decide_not, decide_eq_decide]
  omega

/-- A magnitude that is not zero is at least one unit, so it is not rounded to zero. -/
theorem lowerBits_pos {m : Nat} (h : m ≠ 0) : 0 < lowerBits m := by
  refine magnitude_le_iff.1 ?_
  rw [magnitude_of_lt (by decide)]
  omega

theorem packBits_ne_defaultNaN {sign : Bool} {k : Nat} (h : k ≤ infBits) : packBits sign k ≠ 0x7FC00000#32 := by
  intro heq
  have hbits := congrArg singleBits heq
  unfold infBits at h
  rw [singleBits_packBits sign (by omega), show singleBits 0x7FC00000#32 = 0x7FC00000 by decide] at hbits
  omega

theorem packBits_ne_zero {sign : Bool} {k : Nat} (h : k ≤ infBits) (hk : 0 < k) : packBits sign k ≠ 0x00000000#32 := by
  intro heq
  have hbits := congrArg singleBits heq
  unfold infBits at h
  rw [singleBits_packBits sign (by omega), show singleBits 0x00000000#32 = 0 by decide] at hbits
  omega

/-- The result is the default NaN before and after the negation, or neither that nor `+0` and negated. -/
def NaNOrNegated (v v' : Single) : Prop :=
  (v = 0x7FC00000#32 ∧ v' = 0x7FC00000#32) ∨ (v' = negSingle v ∧ v ≠ 0x7FC00000#32 ∧ v ≠ 0x00000000#32)

theorem NaNOrNegated.eq_ite {v v' : Single} (h : NaNOrNegated v v') (negates : Prop) [Decidable negates] :
    v' = if v = 0x7FC00000#32 then 0x7FC00000#32
      else if v = 0x00000000#32 ∧ ¬ negates then 0x00000000#32 else negSingle v := by
  rcases h with ⟨hnan, hnan'⟩ | ⟨hneg, hnan, hzero⟩
  · rw [hnan', if_pos hnan]
  · rw [hneg, if_neg hnan, if_neg fun h => hzero h.1]

theorem naNOrNegated_infinity (sign : Bool) :
    NaNOrNegated (signedInfinity sign) (signedInfinity !sign) := by
  cases sign <;> exact .inr (by decide)

theorem naNOrNegated_of_infinity {a : Single} {x y : Half} {c : Word} (ha : ¬ SingleNaN a) (hx : ¬ HalfNaN x)
    (hy : ¬ HalfNaN y) (h : SingleInf a ∨ HalfInf x ∨ HalfInf y) :
    NaNOrNegated (fpMulAddReference a x y c) (fpMulAddReference (negSingle a) (negHalf x) y c) := by
  obtain ⟨hinvalid, hproduct, haddend⟩ := infinitiesAndInvalidOperations a x y c ha hx hy
  obtain ⟨hinvalid', hproduct', haddend'⟩ := infinitiesAndInvalidOperations (negSingle a) (negHalf x) y c
    (by rwa [singleNaN_negSingle]) (by rwa [halfNaN_negHalf]) hy
  rw [halfInf_negHalf, halfZero_negHalf] at hinvalid' hproduct'
  rw [singleInf_negSingle, halfInf_negHalf, singleSign_negSingle] at haddend'
  by_cases h1 : (HalfInf x ∧ HalfZero c y) ∨ (HalfZero c x ∧ HalfInf y)
  · exact .inl ⟨hinvalid h1, hinvalid' h1⟩
  by_cases h2 : (HalfInf x ∧ ¬ HalfZero c y) ∨ (¬ HalfZero c x ∧ HalfInf y)
  · rw [hproduct h2, hproduct' h2, ← signedInfinity_eq (halfSign x ^^ halfSign y),
      ← signedInfinity_eq (halfSign (negHalf x) ^^ halfSign y)]
    simp only [SingleInf, singleExp_negSingle, singleFrac_negSingle, singleSign_negSingle, halfSign_negHalf,
      Bool.not_xor, ne_eq, Bool.not_inj_iff]
    split
    · exact .inl ⟨rfl, rfl⟩
    · exact naNOrNegated_infinity _
  · have hxf : ¬ HalfInf x := fun hi => h2 (.inl ⟨hi, fun hz => h1 (.inl ⟨hi, hz⟩)⟩)
    have hyf : ¬ HalfInf y := fun hi => h2 (.inr ⟨fun hz => h1 (.inr ⟨hz, hi⟩), hi⟩)
    have hinf : SingleInf a := h.resolve_right (not_or.2 ⟨hxf, hyf⟩)
    rw [haddend hinf hxf hyf, haddend' hinf hxf hyf, ← signedInfinity_eq, ← signedInfinity_eq]
    exact naNOrNegated_infinity _

section Finite

variable {a : Single} {x y : Half} {c : Word} (ha : SingleFinite a) (hx : HalfFinite x) (hy : HalfFinite y)
  (hmode : roundingMode c = .rn ∨ roundingMode c = .rz)
include ha hx hy hmode

theorem naNOrNegated_of_sum_ne_zero (hsum : usedSum a x y c ≠ 0) :
    NaNOrNegated (fpMulAddReference a x y c) (fpMulAddReference (negSingle a) (negHalf x) y c) := by
  have ha' : SingleFinite (negSingle a) := by rwa [SingleFinite, singleExp_negSingle]
  have hx' : HalfFinite (negHalf x) := by rwa [HalfFinite, halfExp_negHalf]
  have hsum' : usedSum (negSingle a) (negHalf x) y c ≠ 0 := by rwa [usedSum_neg, neg_ne_zero]
  have hmax : lowerBits (usedSum a x y c).natAbs < infBits := lowerBits_lt_iff.2 (natAbs_sumUnits_lt_infBits ..)
  have hle := roundedBits_le (roundingMode c) (decide (usedSum a x y c < 0)) (usedSum a x y c).natAbs
  have hge := lowerBits_le_roundedBits (roundingMode c) (decide (usedSum a x y c < 0)) (usedSum a x y c).natAbs
  have hpos := lowerBits_pos (Int.natAbs_ne_zero.2 hsum)
  rw [fpMulAddReference_of_sum_ne_zero c ha hx hy hsum, fpMulAddReference_of_sum_ne_zero c ha' hx' hy hsum',
    usedSum_neg, decide_neg_lt_zero hsum, Int.natAbs_neg, roundedBits_not hmode, ← negSingle_packBits]
  exact .inr ⟨rfl, packBits_ne_defaultNaN (hle.trans hmax), packBits_ne_zero (hle.trans hmax) (hpos.trans_le hge)⟩

theorem symmetric_of_sum_zero (hsum : usedSum a x y c = 0) :
    fpMulAddReference a x y c = if LikeSignedZeros a x y c then signedZero (singleSign a) else signedZero false := by
  have hplus : (roundingMode c == .rm) = false := by
    rcases hmode with h | h <;> rw [h] <;> rfl
  rw [fpMulAddReference_of_sum_zero c ha hx hy hsum, hplus]

/-- Of the zero sums only those of two like-signed zeros change their sign. -/
theorem negated_of_sum_zero (hsum : usedSum a x y c = 0) :
    fpMulAddReference (negSingle a) (negHalf x) y c =
      if LikeSignedZeros a x y c then signedZero (!singleSign a) else signedZero false := by
  have ha' : SingleFinite (negSingle a) := by rwa [SingleFinite, singleExp_negSingle]
  have hx' : HalfFinite (negHalf x) := by rwa [HalfFinite, halfExp_negHalf]
  have hsum' : usedSum (negSingle a) (negHalf x) y c = 0 := by rwa [usedSum_neg, neg_eq_zero]
  exact (symmetric_of_sum_zero ha' hx' hy hmode hsum').trans
    (if_congr (likeSignedZeros_neg a x y c) (congrArg signedZero (singleSign_negSingle a)) rfl)

end Finite

theorem signedZero_ne_defaultNaN (sign : Bool) : signedZero sign ≠ 0x7FC00000#32 := by
  cases sign <;> decide

theorem negSingle_signedZero (sign : Bool) : negSingle (signedZero sign) = signedZero (!sign) := by
  cases sign <;> rfl

theorem finite_or_nan_or_infinity (a : Single) (x y : Half) :
    (SingleFinite a ∧ HalfFinite x ∧ HalfFinite y) ∨ (SingleNaN a ∨ HalfNaN x ∨ HalfNaN y) ∨
      (¬ SingleNaN a ∧ ¬ HalfNaN x ∧ ¬ HalfNaN y ∧ (SingleInf a ∨ HalfInf x ∨ HalfInf y)) := by
  tauto

/-- Settles O51: by the special operands, the rounded sums and the zero sums. -/
theorem signSymmetryInSymmetricModes : Obligations.SignSymmetryInSymmetricModes := by
  intro a x y c hmode
  rcases finite_or_nan_or_infinity a x y with ⟨ha, hx, hy⟩ | hnan | ⟨ha, hx, hy, hinf⟩
  · by_cases hsum : usedSum a x y c = 0
    · rw [negated_of_sum_zero ha hx hy hmode hsum, symmetric_of_sum_zero ha hx hy hmode hsum]
      by_cases hzeros : LikeSignedZeros a x y c
      · rw [if_pos hzeros, if_pos hzeros, if_neg (signedZero_ne_defaultNaN _), if_neg fun h => h.2 hzeros,
          negSingle_signedZero]
      · rw [if_neg hzeros, if_neg hzeros, if_neg (signedZero_ne_defaultNaN _), if_pos ⟨rfl, hzeros⟩]
        rfl
    · exact (naNOrNegated_of_sum_ne_zero ha hx hy hmode hsum).eq_ite _
  · refine NaNOrNegated.eq_ite (.inl ⟨naNOperandGivesDefaultNaN _ _ _ _ hnan, naNOperandGivesDefaultNaN _ _ _ _ ?_⟩) _
    rwa [singleNaN_negSingle, halfNaN_negHalf]
  · exact (naNOrNegated_of_infinity ha hx hy hinf).eq_ite _

end Sys2Proof.Machine
end

section
/-!
Faults (60_exceptions.md R130 to R136): the one fault a word of the three formats can raise in a state, the order of a
step's outcomes, and the runs that a fault, a refusal or the end of the program stops.
-/

namespace Sys2Proof.Machine

/-! ## The fault of a word (R130 to R132) -/

/-- The two tests name four faults, each under its own condition on the configuration and the modes. -/
theorem executionFault_eq_some_iff (w : Word) (s : State) (f : Fault) :
    executionFault w s = some f ↔
      (f = .undefined w s.pc ∧ s.cfg.featSme2 = false) ∨
      (s.cfg.featSme2 = true ∧
        ((f = .smeAccessTrap .accessTrapped w s.pc ∧ s.accessTrapped = true) ∨
         (f = .smeAccessTrap .notStreaming w s.pc ∧ s.accessTrapped = false ∧ s.pstate.sm = false) ∨
         (f = .smeAccessTrap .inactiveZa w s.pc ∧ s.accessTrapped = false ∧ s.pstate.sm = true ∧
           s.pstate.za = false))) := by
  unfold executionFault featureFault streamingAndZaFault
  cases s.cfg.featSme2 with
  | false => simp [eq_comm (a := f)]
  | true =>
    cases s.accessTrapped with
    | true => simp [eq_comm (a := f)]
    | false =>
      cases s.pstate.sm with
      | false => simp [eq_comm (a := f)]
      | true => cases s.pstate.za <;> simp [eq_comm (a := f)]

theorem executionFault_of_no_feature (w : Word) {s : State} (hfeat : s.cfg.featSme2 = false) :
    executionFault w s = some (.undefined w s.pc) :=
  (executionFault_eq_some_iff ..).2 (.inl ⟨rfl, hfeat⟩)

/-- The converse of `fmlal_fault`: an instruction some word encodes raises the fault of the two tests. -/
theorem exec_of_executionFault {i : Instr} {s : State} {f : Fault} (hwf : i.WellFormed)
    (hf : executionFault (encode i) s = some f) : exec i s = .fault f := by
  simp [exec_eq_fmlal, fmlal, hwf, hf, raise]

/-- Settles O17: an instruction's fault is that of the two tests for its word. -/
theorem faultsAreExactlyFour : Obligations.FaultsAreExactlyFour := by
  intro i s f h
  rw [exec_eq_fmlal] at h
  exact (executionFault_eq_some_iff ..).1 (fmlal_fault h).2

/-- Settles O18: the feature test comes before every other. -/
theorem undefinedWithoutFeature : Obligations.UndefinedWithoutFeature :=
  fun _ _ hwf hfeat => exec_of_executionFault hwf (executionFault_of_no_feature _ hfeat)

/-! ## The order of a step's outcomes (R135) -/

/-- A step at a word in scope runs a well-formed instruction whose word it is. -/
theorem step_of_inScope {s : State} {w : Word} (hw : fetch s = .word w) (hin : inScope w = true) :
    ∃ i, i.WellFormed ∧ encode i = w ∧ step s = exec i s := by
  obtain ⟨i, hi, hwf, hword⟩ := encodeInvertsDecode w hin
  exact ⟨i, hwf, hword, step_of_decode hw hi⟩

theorem step_of_executionFault {s : State} {w : Word} {f : Fault} (hw : fetch s = .word w) (hin : inScope w = true)
    (hf : executionFault w s = some f) : step s = .fault f := by
  obtain ⟨i, hwf, rfl, hstep⟩ := step_of_inScope hw hin
  rw [hstep, exec_of_executionFault hwf hf]

theorem step_completes {s : State} {w : Word} (hw : fetch s = .word w) (hin : inScope w = true)
    (he : s.enabled = true) (ha : s.afpPlain = true) : ∃ t, step s = .next t := by
  obtain ⟨i, hwf, -, hstep⟩ := step_of_inScope hw hin
  exact ⟨_, hstep.trans (exec_completes hwf he ha)⟩

/-- Settles O16: a word out of scope has no instruction to test; the next four clauses are the four faults; and without
one, specified numerics let the instruction complete. -/
theorem outcomesAreTestedInOrder : Obligations.OutcomesAreTestedInOrder := by
  intro s w hw
  refine ⟨fun hout => (otherWordsAreRefused w hout).2 s hw, fun hin hfeat => ?_, fun hin hfeat htrap => ?_,
    fun hin hfeat htrap hsm => ?_, fun hin hfeat htrap hsm hza => ?_, fun hin hfeat htrap hsm hza ha => ?_⟩
  · exact step_of_executionFault hw hin (executionFault_of_no_feature w hfeat)
  · exact step_of_executionFault hw hin ((executionFault_eq_some_iff ..).2 (.inr ⟨hfeat, .inl ⟨rfl, htrap⟩⟩))
  · exact step_of_executionFault hw hin
      ((executionFault_eq_some_iff ..).2 (.inr ⟨hfeat, .inr (.inl ⟨rfl, htrap, hsm⟩)⟩))
  · exact step_of_executionFault hw hin
      ((executionFault_eq_some_iff ..).2 (.inr ⟨hfeat, .inr (.inr ⟨rfl, htrap, hsm, hza⟩)⟩))
  · exact step_completes hw hin (by simp [State.enabled, hfeat, htrap, hsm, hza]) (by simp [State.afpPlain, ha])

/-- Settles O40: the placed word is the one fetched, `pc` stays 0, and the modes are those of reset, so of the tests the
one on `PSTATE.SM` is the first to fail. -/
theorem firstInstructionAfterResetTraps : Obligations.FirstInstructionAfterResetTraps := by
  intro w hin
  obtain ⟨hfetch, prog, base, pc, hplaced, hpc⟩ := placedWordIsFetchedNext State.reset w
  obtain rfl : pc = 0#64 := hpc rfl
  rw [hplaced] at hfetch ⊢
  obtain ⟨-, -, -, hnotStreaming, -, -⟩ := outcomesAreTestedInOrder _ w hfetch
  exact hnotStreaming hin rfl rfl rfl

/-! ## Runs that have stopped (R133, R136, R153) -/

theorem runStep_of_not_running {r : Run} (h : r.mark ≠ .running) : runStep r = r := by
  obtain ⟨mark, s⟩ := r
  cases mark with
  | running => exact absurd rfl h
  | ended | faulted | refused => rfl

theorem runSteps_of_not_running {r : Run} (h : r.mark ≠ .running) (k : Nat) : runSteps k r = r := by
  induction k with
  | zero => rfl
  | succ k ih => rw [runSteps, runStep_of_not_running h, ih]

theorem runStep_launch_of_ended {s : State} (h : fetch s = .ended) : runStep (launch s) = ⟨.ended, s⟩ :=
  if_pos h

theorem runStep_launch_of_not_ended {s : State} (h : fetch s ≠ .ended) : runStep (launch s) = stepMark s :=
  if_neg h

/-- At the end of the program a step answers `endOfRun` and nothing else. -/
theorem fetch_ne_ended_of_step {s : State} (h : step s ≠ .refused .endOfRun) : fetch s ≠ .ended :=
  fun hended => h (step_of_fetch_ended hended)

theorem runStep_launch_of_fault {s : State} {f : Fault} (h : step s = .fault f) :
    runStep (launch s) = ⟨.faulted f, s⟩ := by
  rw [runStep_launch_of_not_ended (fetch_ne_ended_of_step (by simp [h])), stepMark, h]

theorem runStep_launch_of_refused {s : State} {q : Refusal} (h : step s = .refused q) (hq : q ≠ .endOfRun) :
    runStep (launch s) = ⟨.refused q, s⟩ := by
  rw [runStep_launch_of_not_ended (fetch_ne_ended_of_step (by simpa [h] using hq)), stepMark, h]

/-- Settles O21: the first step of the run sets its mark and leaves its state, and a marked run stays as it is. -/
theorem endedRunsKeepMarkAndState : Obligations.EndedRunsKeepMarkAndState := by
  refine ⟨fun s f k h => ?_, fun s q k h hq => ?_, fun s k h => ?_⟩
  · rw [runSteps, runStep_launch_of_fault h]
    exact runSteps_of_not_running (by simp) k
  · rw [runSteps, runStep_launch_of_refused h hq]
    exact runSteps_of_not_running (by simp) k
  · rw [runSteps, runStep_launch_of_ended h]
    exact runSteps_of_not_running (by simp) k

end Sys2Proof.Machine
end

section
/-!
Ready machines (70_reset_and_hazards.md R151 to R153): when an instruction faults, what a ready machine does in one step,
and the run of a program from its launch state to its end.
-/

namespace Sys2Proof.Machine

/-! ## When an instruction faults (R151) -/

theorem exec_fault_iff {i : Instr} {s : State} {f : Fault} (hwf : i.WellFormed) :
    exec i s = .fault f ↔ executionFault (encode i) s = some f :=
  ⟨fun h => (fmlal_fault (exec_eq_fmlal i s ▸ h)).2, exec_of_executionFault hwf⟩

/-- Settles O19: an instruction's faults are those of the two tests for its word, which find none exactly under the four
premises. -/
theorem faultsExactlyWhenNotEnabled : Obligations.FaultsExactlyWhenNotEnabled := by
  intro i s hwf
  simp only [exec_fault_iff hwf, not_exists, ← Option.eq_none_iff_forall_ne_some]
  exact executionFault_eq_none (encode i) s

/-! ## The program text of a ready machine (R42, R152) -/

theorem placed_iff (s : State) :
    s.placed = true ↔ s.base.toNat % 4 = 0 ∧ s.base.toNat + 4 * s.prog.length ≤ 2 ^ 64 := by
  simp [State.placed, State.baseAligned]

theorem textReady_iff (s : State) :
    s.textReady = true ↔ s.prog.all inScope = true ∧ s.placed = true ∧ s.pc = s.base := by
  simp [State.textReady, and_assoc]

theorem base_at_word_zero (a : DWord) : a + BitVec.ofNat 64 (4 * 0) = a := BitVec.add_zero a

/-- Settles O37: at launch `pc` is at the program's word number 0. -/
theorem launchStateIsReady : Obligations.LaunchStateIsReady := by
  rintro s ⟨htext, he, ha⟩
  obtain ⟨hscope, hplaced, hpc⟩ := (textReady_iff s).1 htext
  exact ⟨⟨hscope, hplaced, 0, Nat.zero_le _, hpc.trans (base_at_word_zero _).symm⟩, he, ha⟩

/-- The address of a word of a placed program does not wrap. -/
theorem pc_toNat_at_word {s : State} {k : Nat} (hplaced : s.placed = true) (hk : k < s.prog.length)
    (hpc : s.pc = s.base + BitVec.ofNat 64 (4 * k)) : s.pc.toNat = s.base.toNat + 4 * k := by
  obtain ⟨_, hend⟩ := (placed_iff s).1 hplaced
  rw [hpc, BitVec.toNat_add, BitVec.toNat_ofNat]
  omega

theorem fetch_at_word {s : State} {k : Nat} (hplaced : s.placed = true) (hk : k < s.prog.length)
    (hpc : s.pc = s.base + BitVec.ofNat 64 (4 * k)) : fetch s = .word s.prog[k] :=
  (fetch_eq_word_iff s _).2
    ⟨((placed_iff s).1 hplaced).1, k, pc_toNat_at_word hplaced hk hpc, List.getElem?_eq_getElem hk⟩

theorem inScope_of_fetch_word {s : State} {w : Word} (hscope : s.prog.all inScope = true) (h : fetch s = .word w) :
    inScope w = true := by
  obtain ⟨_, k, _, hw⟩ := (fetch_eq_word_iff s w).1 h
  exact List.all_eq_true.1 hscope w (List.mem_of_getElem? hw)

/-- A machine in its program's text fetches a word or ends: the `pc` that finds no word is at the end. -/
theorem fetch_of_inText {s : State} (h : InText s) : fetch s = .ended ∨ ∃ w, fetch s = .word w := by
  by_cases hword : ∃ w, fetch s = .word w
  · exact .inr hword
  · left
    obtain ⟨_, hplaced, k, hk, hpc⟩ := h
    obtain hlt | rfl := Nat.lt_or_eq_of_le hk
    · exact absurd ⟨_, fetch_at_word hplaced hlt hpc⟩ hword
    · have hend : s.atEnd = true := by simp [State.atEnd, State.baseAligned, ((placed_iff s).1 hplaced).1, hpc]
      rw [fetch_of_no_word s (not_exists.1 hword), if_pos hend]

/-! ## One step of a ready machine (R151, R153) -/

theorem ready_step_completes {s : State} {w : Word} (h : Ready s) (hw : fetch s = .word w) : ∃ t, step s = .next t := by
  obtain ⟨⟨hscope, _⟩, he, ha⟩ := h
  exact step_completes hw (inScope_of_fetch_word hscope hw) he ha

/-- The step keeps the text invariant, and neither the modes nor FPCR nor the parameters change. -/
theorem step_keeps_ready {s t : State} (h : Ready s) (hc : AccessConstant s) (hstep : step s = .next t) :
    Ready t ∧ AccessConstant t := by
  obtain ⟨htext, he, ha⟩ := h
  have htext' : InText t := stepKeepsProgramTextInvariant s t htext hstep
  obtain ⟨_, _, _, _, _, _, _, rfl⟩ := step_next hstep
  exact ⟨⟨htext', (enabled_fmlalNext hc ..).trans he, ha⟩, hc⟩

/-- Settles O38: in its program's text a machine ends or fetches a word; when ready it completes that word's instruction,
which keeps it ready. -/
theorem readyMachineStepsAndStaysReady : Obligations.ReadyMachineStepsAndStaysReady := by
  intro s h hc
  obtain hended | ⟨w, hw⟩ := fetch_of_inText h.1
  · exact .inl ⟨hended, step_of_fetch_ended hended⟩
  · obtain ⟨t, hstep⟩ := ready_step_completes h hw
    exact .inr ⟨t, hstep, step_keeps_ready h hc hstep⟩

/-! ## Completed steps and the run they make (R153) -/

theorem stepsFrom_succ_iff (k : Nat) (s u : State) :
    stepsFrom (k + 1) s = some u ↔ ∃ t, step s = .next t ∧ stepsFrom k t = some u := by
  cases h : step s <;> simp [stepsFrom, h]

theorem stepsFrom_add_one {s t u : State} {k : Nat} (h : stepsFrom k s = some t) (hstep : step t = .next u) :
    stepsFrom (k + 1) s = some u := by
  induction k generalizing s with
  | zero =>
    obtain rfl : s = t := Option.some.inj h
    exact (stepsFrom_succ_iff 0 s u).2 ⟨u, hstep, rfl⟩
  | succ k ih =>
    obtain ⟨s', hfirst, hrest⟩ := (stepsFrom_succ_iff k s t).1 h
    exact (stepsFrom_succ_iff (k + 1) s u).2 ⟨s', hfirst, ih hrest⟩

theorem runStep_launch_of_next {s t : State} (h : step s = .next t) : runStep (launch s) = launch t := by
  rw [runStep_launch_of_not_ended (fetch_ne_ended_of_step (by simp [h])), stepMark, h, launch]

theorem runSteps_add_one (k : Nat) (r : Run) : runSteps (k + 1) r = runStep (runSteps k r) := by
  induction k generalizing r with
  | zero => rfl
  | succ k ih => exact ih (runStep r)

/-- A run whose steps complete is still running, at the state they lead to. -/
theorem runSteps_launch_of_stepsFrom {s t : State} {k : Nat} (h : stepsFrom k s = some t) :
    runSteps k (launch s) = launch t := by
  induction k generalizing s with
  | zero => exact congrArg launch (Option.some.inj h)
  | succ k ih =>
    obtain ⟨s', hfirst, hrest⟩ := (stepsFrom_succ_iff k s t).1 h
    rw [runSteps, runStep_launch_of_next hfirst]
    exact ih hrest

/-- From the launch state `s`, `k` completed steps lead to `t`, which is ready for the program's word number `k`. -/
structure ReachesWord (s : State) (k : Nat) (t : State) : Prop where
  steps : stepsFrom k s = some t
  ready : Ready t
  accessConstant : AccessConstant t
  prog : t.prog = s.prog
  base : t.base = s.base
  pc : t.pc = s.base + BitVec.ofNat 64 (4 * k)

theorem reachesWord_zero {s : State} (h : LaunchReady s) (hc : AccessConstant s) : ReachesWord s 0 s where
  steps := rfl
  ready := launchStateIsReady s h
  accessConstant := hc
  prog := rfl
  base := rfl
  pc := by
    obtain ⟨htext, _, _⟩ := h
    obtain ⟨_, _, hpc⟩ := (textReady_iff s).1 htext
    exact hpc.trans (base_at_word_zero _).symm

theorem ReachesWord.placed {s t : State} {k : Nat} (h : ReachesWord s k t) : t.placed = true := by
  obtain ⟨⟨_, hplaced, _⟩, _, _⟩ := h.ready
  exact hplaced

/-- The word number `k` is fetched, so the step completes and moves `pc` to the next place. -/
theorem ReachesWord.next {s t : State} {k : Nat} (h : ReachesWord s k t) (hk : k < s.prog.length) :
    ∃ u, ReachesWord s (k + 1) u := by
  have hlt : k < t.prog.length := h.prog ▸ hk
  have hpc : t.pc = t.base + BitVec.ofNat 64 (4 * k) := h.base ▸ h.pc
  obtain ⟨u, hstep⟩ := ready_step_completes h.ready (fetch_at_word h.placed hlt hpc)
  obtain ⟨hready, hconst⟩ := step_keeps_ready h.ready h.accessConstant hstep
  obtain ⟨za', rfl⟩ := stepChangesOnlyZaAndPc t u hstep
  have hnext := add_four_eq_next_word (pc_toNat_at_word h.placed hlt hpc)
  exact ⟨_, stepsFrom_add_one h.steps hstep, hready, hconst, h.prog, h.base, h.base ▸ hnext⟩

theorem exists_reachesWord {s : State} (h : LaunchReady s) (hc : AccessConstant s) {k : Nat} (hk : k ≤ s.prog.length) :
    ∃ t, ReachesWord s k t := by
  induction k with
  | zero => exact ⟨s, reachesWord_zero h hc⟩
  | succ k ih =>
    obtain ⟨t, ht⟩ := ih (Nat.le_of_succ_le hk)
    exact ht.next hk

/-- The place after the last word is the end of the program, and none of its words (log entry 10). -/
theorem ReachesWord.fetch_ended {s t : State} (h : ReachesWord s s.prog.length t) (hlen : s.prog.length < 2 ^ 62) :
    fetch t = .ended := by
  obtain ⟨hbase, hplaced⟩ := (placed_iff t).1 h.placed
  have hend : t.pc.toNat = (t.base.toNat + 4 * t.prog.length) % 2 ^ 64 := by
    rw [h.pc, h.base, h.prog, BitVec.toNat_add, BitVec.toNat_ofNat, Nat.add_mod_mod]
  obtain ⟨-, hatEnd, -⟩ := fetchFollowsProgramText t hbase hplaced (h.prog ▸ hlen)
  exact (hatEnd hend).1

/-- Settles O39: the launched machine reaches each of the program's words, running, and then the program's end. -/
theorem runEndsAfterLenSteps : Obligations.RunEndsAfterLenSteps := by
  intro s h hc hlen
  obtain ⟨t, ht⟩ := exists_reachesWord h hc (Nat.le_refl s.prog.length)
  refine ⟨t, ht.steps, ht.pc, fun k hk => ?_, ?_⟩
  · obtain ⟨u, hu⟩ := exists_reachesWord h hc hk
    rw [runSteps_launch_of_stepsFrom hu.steps, launch]
  · rw [runSteps_add_one, runSteps_launch_of_stepsFrom ht.steps, runStep_launch_of_ended (ht.fetch_ended hlen)]

end Sys2Proof.Machine
end
